-- ==== Sys2Proof/Word.lean ====
section
/-! DEFINITION. The byte and the register index: the two kinds of number every rule of the spec is
written in (spec/00_scope.md section 5, spec/10_state.md rule R10). -/

namespace Sys2Proof

/-- An 8-bit unsigned value: a register, a memory cell, an address, `pc`, `fl`, an operand byte.
Bit 0 is the least significant bit (spec/00_scope.md section 5). -/
abbrev Byte := BitVec 8

/-- The index of one of the eight registers `R0` .. `R7` (spec/10_state.md rule R10). -/
abbrev RegIdx := Fin 8

/-- `v mod 256`: the low 8 bits of an exact result (spec/00_scope.md section 5, spec/45_alu.md rule R121). -/
abbrev toByte (n : Nat) : Byte := BitVec.ofNat 8 n

end Sys2Proof
end

