-- ==== Sys2Proof/Machine/State.lean ====
section
/-! DEFINITION. The whole state of the machine (spec/10_state.md), its reset value (rule R26), and
the reasons a step has no next state. -/

namespace Sys2Proof.Machine

/-- The four fault kinds the core raises (spec/60_exceptions.md rule R140). LoadParseError is the
loader's and no state of the machine (rule R141). -/
inductive FaultKind where
  /-- the opcode byte is not in the mapping (rule R142) -/
  | unknownInstruction
  /-- the opcode byte is routed to the ALU, which lacks it (rule R143) -/
  | unsupportedAluOperation
  /-- DIV or MOD with a zero divisor (rule R145) -/
  | divideByZero
  /-- an address or a register index outside its range (rule R144) -/
  | outOfRangeAddress
  deriving DecidableEq, Repr

/-- The run status (spec/10_state.md rule R19). Halted and Faulted are terminal. -/
inductive Status where
  | running
  | halted
  | faulted (kind : FaultKind)
  deriving DecidableEq, Repr

/-- One event of the output sequence (spec/10_state.md rule R23). -/
inductive OutEvent where
  /-- `OutNum(v)`, from PRN (spec/41_data_movement_and_output.md rule R92) -/
  | num (v : Byte)
  /-- `OutChr(v)`, from PRA (spec/41_data_movement_and_output.md rule R93) -/
  | chr (v : Byte)
  deriving DecidableEq, Repr

/-- The 256 cells (spec/10_state.md rule R21) as (address, byte) pairs in canonical form: addresses
strictly rising and below 256, no entry equal to what an unlisted address reads as
(`Memory.wf`, Sys2Proof/Machine/Ops.lean). -/
abbrev Memory := List Host.Cell

/-- The state tuple at the head of spec/10_state.md; nothing else is state. -/
structure State where
  /-- the 256 cells of memory: program, data and stack (rule R21) -/
  mem : Memory
  /-- the registers `R0` .. `R7`; register 7 is the stack pointer (rule R10, rule R12) -/
  x : Vector Byte 8
  /-- the program counter, 8 bits (rule R14, rule R15) -/
  pc : Byte
  /-- the flags: bit 0 equal, bit 1 greater, bit 2 less, bits 7:3 always 0 (rule R17) -/
  fl : Byte
  /-- the run status (rule R19) -/
  status : Status
  /-- the output sequence, oldest event first (rule R23) -/
  out : List OutEvent
  deriving DecidableEq, Repr

/-- Reset (spec/10_state.md rule R26): `pc`, `x[7]` and `status` are the document's; `x[0..6]`, `fl`
and the cells outside an image are 0 by the spec's decisions D9 and D10, PRESUMED (assumption logs 4
and 5). No image is loaded here: `State.start` loads one (log 6). -/
def State.reset : State where
  mem := []
  x := #v[0x00#8, 0x00#8, 0x00#8, 0x00#8, 0x00#8, 0x00#8, 0x00#8, 0xF4#8]
  pc := 0x00#8
  fl := 0x00#8
  status := .running
  out := []

/-- Why a machine takes no step. Both are raised by `step` alone, on a state whose status is
terminal (spec/40_engine.md rule R79). Safe: the machine has no step there, so no claim about a next
state can be proved. The faults the spec describes are not here: an instruction that raises one takes
a step, to a state whose status is `Status.faulted` (spec/60_exceptions.md rule R147). -/
inductive Fault where
  /-- the status is Halted: `step` has no next state (safe) -/
  | machineHalted
  /-- the status is Faulted of this kind: `step` has no next state (safe) -/
  | machineFaulted (kind : FaultKind)
  deriving DecidableEq, Repr

/-- Why an instruction has no meaning in this model. -/
inductive Refusal where
  /-- raised by an arm of `exec` that has no meaning yet (safe); no arm does so now -/
  | notModelled (mnemonic : String)
  deriving DecidableEq, Repr

end Sys2Proof.Machine
end

