-- ==== Sys2Proof/Machine/Flags.lean ====
section
/-! DEFINITION. The flags register: its three bits, and the one computation that writes them
(spec/10_state.md rule R17, spec/45_alu.md rule R133). -/

namespace Sys2Proof.Machine

/-- E, bit 0 of `fl`: the last CMP found its operands equal. -/
def flagE (fl : Byte) : Bool := fl.getLsbD 0

/-- G, bit 1 of `fl`: the last CMP found operand a greater. -/
def flagG (fl : Byte) : Bool := fl.getLsbD 1

/-- L, bit 2 of `fl`: the last CMP found operand a less. -/
def flagL (fl : Byte) : Bool := fl.getLsbD 2

/-- The value CMP writes to `fl`: all eight bits, from the unsigned comparison of the two registers
(spec/45_alu.md rule R133). -/
def compareFlags (u v : Byte) : Byte :=
  if u.toNat = v.toNat then 0b00000001#8
  else if v.toNat < u.toNat then 0b00000010#8
  else 0b00000100#8

end Sys2Proof.Machine
end

