-- ==== Sys2Proof/Syntax.lean ====
section
/-! DEFINITION. The 25 instructions (spec/30_encoding.md rule R57, spec/opcode_table.json): their
mnemonics, their formats, and the instruction as the engine hands it to a handler, that is with its
operand bytes as latched at fetch. -/

namespace Sys2Proof

/-- The 25 mnemonics of the dispatch mapping, in the order of the table of spec/30_encoding.md rule R57. -/
inductive Mnemonic where
  | hlt | ret | push | pop | prn | pra | call | jmp | jeq | jne | not
  | ldi | st | add | sub | mul | div | mod | addi | cmp | and | or | xor | shl | shr
  deriving DecidableEq, Repr

/-- The four formats of spec/30_encoding.md rule R53. -/
inductive Format where
  /-- no operand byte -/
  | z
  /-- operand a, a register index -/
  | r
  /-- operands a and b, both register indices -/
  | rr
  /-- operand a a register index, operand b an 8-bit immediate -/
  | ri
  deriving DecidableEq, Repr

/-- An operand byte as the engine latched it: `none` where its address would be above 255
(spec/40_engine.md rule R71 and rule R72). The byte is kept whole: the handler that uses it as a
register index checks it (rule R76), and a branch that is not taken never looks at it
(spec/43_control_transfer.md rule R108), so decoding may not narrow it. -/
abbrev Operand := Option Byte

/-- An instruction, one constructor per row of spec/opcode_table.json. `a` and `b` are operands a
and b of spec/30_encoding.md rule R53; `imm` is operand b where it is an immediate. -/
inductive Instr where
  | hlt
  | ret
  | push (a : Operand)
  | pop (a : Operand)
  | prn (a : Operand)
  | pra (a : Operand)
  | call (a : Operand)
  | jmp (a : Operand)
  | jeq (a : Operand)
  | jne (a : Operand)
  | not (a : Operand)
  | ldi (a imm : Operand)
  | st (a b : Operand)
  | add (a b : Operand)
  | sub (a b : Operand)
  | mul (a b : Operand)
  | div (a b : Operand)
  | mod (a b : Operand)
  | addi (a imm : Operand)
  | cmp (a b : Operand)
  | and (a b : Operand)
  | or (a b : Operand)
  | xor (a b : Operand)
  | shl (a b : Operand)
  | shr (a b : Operand)
  deriving DecidableEq, Repr

end Sys2Proof
end

