-- ==== Sys2Proof/WellFormed.lean ====
section
/-! DEFINITION. When an instruction is complete (every operand byte it has was fetched) and when it
is well formed (complete, and every register operand names one of the eight registers):
spec/30_encoding.md rule R53 and rule R54, spec/40_engine.md rule R72 and rule R76. An instruction
that is neither still takes its step: the machine faults as its rule says. -/

namespace Sys2Proof

/-- The operand byte lies at an address 0..255 (spec/40_engine.md rule R72). -/
def Operand.present (o : Operand) : Bool := o.isSome

/-- The operand byte is present and is a register index 0..7 (spec/40_engine.md rule R76). -/
def Operand.isReg (o : Operand) : Bool :=
  match o with
  | none => false
  | some v => decide (v.toNat ≤ 7)

/-- Every operand byte the instruction has is present. -/
def Instr.complete (i : Instr) : Bool :=
  match i with
  | .hlt => true
  | .ret => true
  | .push a => Operand.present a
  | .pop a => Operand.present a
  | .prn a => Operand.present a
  | .pra a => Operand.present a
  | .call a => Operand.present a
  | .jmp a => Operand.present a
  | .jeq a => Operand.present a
  | .jne a => Operand.present a
  | .not a => Operand.present a
  | .ldi a imm => Operand.present a && Operand.present imm
  | .st a b => Operand.present a && Operand.present b
  | .add a b => Operand.present a && Operand.present b
  | .sub a b => Operand.present a && Operand.present b
  | .mul a b => Operand.present a && Operand.present b
  | .div a b => Operand.present a && Operand.present b
  | .mod a b => Operand.present a && Operand.present b
  | .addi a imm => Operand.present a && Operand.present imm
  | .cmp a b => Operand.present a && Operand.present b
  | .and a b => Operand.present a && Operand.present b
  | .or a b => Operand.present a && Operand.present b
  | .xor a b => Operand.present a && Operand.present b
  | .shl a b => Operand.present a && Operand.present b
  | .shr a b => Operand.present a && Operand.present b

/-- Every operand has a legal value: a register index 0..7, an immediate any byte
(the "legal" column of spec/30_encoding.md rule R53). -/
def Instr.wellFormed (i : Instr) : Bool :=
  match i with
  | .hlt => true
  | .ret => true
  | .push a => Operand.isReg a
  | .pop a => Operand.isReg a
  | .prn a => Operand.isReg a
  | .pra a => Operand.isReg a
  | .call a => Operand.isReg a
  | .jmp a => Operand.isReg a
  | .jeq a => Operand.isReg a
  | .jne a => Operand.isReg a
  | .not a => Operand.isReg a
  | .ldi a imm => Operand.isReg a && Operand.present imm
  | .st a b => Operand.isReg a && Operand.isReg b
  | .add a b => Operand.isReg a && Operand.isReg b
  | .sub a b => Operand.isReg a && Operand.isReg b
  | .mul a b => Operand.isReg a && Operand.isReg b
  | .div a b => Operand.isReg a && Operand.isReg b
  | .mod a b => Operand.isReg a && Operand.isReg b
  | .addi a imm => Operand.isReg a && Operand.present imm
  | .cmp a b => Operand.isReg a && Operand.isReg b
  | .and a b => Operand.isReg a && Operand.isReg b
  | .or a b => Operand.isReg a && Operand.isReg b
  | .xor a b => Operand.isReg a && Operand.isReg b
  | .shl a b => Operand.isReg a && Operand.isReg b
  | .shr a b => Operand.isReg a && Operand.isReg b

end Sys2Proof
end

