-- ==== Sys2Proof/Machine/Operands.lean ====
section
/-! DEFINITION. Every operand form of spec/30_encoding.md section 2: an operand byte a handler needs,
a register index, an immediate. -/

namespace Sys2Proof.Machine

/-- `opnd(k)` (spec/40_engine.md rule R72): using an absent operand byte raises OutOfRangeAddress. -/
def opnd (o : Operand) : Except FaultKind Byte :=
  match o with
  | some v => .ok v
  | none => .error .outOfRangeAddress

/-- `ridx(v)` (spec/40_engine.md rule R76): the index is neither masked nor clamped. -/
def ridx (v : Byte) : Except FaultKind RegIdx :=
  if h : v.toNat ≤ 7 then .ok ⟨v.toNat, Nat.lt_succ_of_le h⟩ else .error .outOfRangeAddress

/-- `ridx(opnd(k))`: a register operand, presence checked first, then the index
(spec/60_exceptions.md rule R146, level 2). -/
def regOperand (o : Operand) : Except FaultKind RegIdx := do
  let v ← opnd o
  ridx v

/-- An immediate operand: the whole byte, never range-checked (spec/30_encoding.md rule R55). -/
def immOperand (o : Operand) : Except FaultKind Byte := opnd o

/-- The operand byte that names register `a` (spec/30_encoding.md rule R54). -/
def regByte (a : RegIdx) : Operand := some (toByte a.val)

/-- Two register operands, a before b (spec/45_alu.md rule R122). -/
def regPair (oa ob : Operand) : Except FaultKind (RegIdx × RegIdx) := do
  let a ← regOperand oa
  let b ← regOperand ob
  pure (a, b)

end Sys2Proof.Machine
end

