-- ==== Sys2Proof/Config.lean ====
section
/-! DEFINITION. What the spec makes a parameter of the model and not a fact of the machine
(spec/00_scope.md rule R6). The values the spec uses stand in Sys2Proof/Decode.lean (`specConfig`).
The remaining parameter of rule R6, `MEM_INIT`, is the image `State.start` takes
(Sys2Proof/Machine/Ops.lean). This hardware needs no free value: the spec leaves no result open
(spec/93_implementation_defined.md sections 1 and 2). -/

namespace Sys2Proof

/-- The parameters of spec/00_scope.md rule R6 that the decoder reads. -/
structure Config where
  /-- `OPCODE_MAP`, with `OPC_ADDI` as its ADDI row: the dispatch mapping from the whole opcode byte
  to the instruction (spec/30_encoding.md rule R57). -/
  opcodeMap : List (Byte × Mnemonic)
  /-- `ALU_ROUTED_UNIMPLEMENTED`: the opcode bytes the mapping routes to the ALU and the ALU lacks
  (spec/30_encoding.md rule R60). -/
  aluRoutedUnimplemented : List Byte
  deriving DecidableEq, Repr

end Sys2Proof
end

