-- ==== Sys2Proof/Decode.lean ====
section
/-! DEFINITION. From bytes to an instruction and back: the control fields of the opcode byte, the
dispatch mapping, the decoder and the encoder (spec/30_encoding.md, spec/40_engine.md rule R73 and
rule R74). -/

namespace Sys2Proof

/-! ### The control fields of the opcode byte (spec/30_encoding.md rule R51) -/

/-- `nops`, bits 7:6: the number of operand bytes. -/
def opNops (op : Byte) : Nat := op.toNat / 64

/-- `alu`, bit 5: the engine routes the instruction to the shared ALU handler. -/
def opAlu (op : Byte) : Bool := op.getLsbD 5

/-- `setspc`, bit 4: the handler sets the program counter itself. -/
def opSetsPc (op : Byte) : Bool := op.getLsbD 4

/-- Instruction length in bytes, `1 + nops` (spec/30_encoding.md rule R52). -/
def opLength (op : Byte) : Nat := 1 + opNops op

/-! ### What the mapping says of each mnemonic (spec/30_encoding.md rule R53, rule R57, rule R58) -/

/-- The format column of the opcode map. -/
def Mnemonic.format (m : Mnemonic) : Format :=
  match m with
  | .hlt | .ret => .z
  | .push | .pop | .prn | .pra | .call | .jmp | .jeq | .jne | .not => .r
  | .ldi | .addi => .ri
  | .st | .add | .sub | .mul | .div | .mod | .cmp | .and | .or | .xor | .shl | .shr => .rr

/-- How many operand bytes a format has. -/
def Format.nops (f : Format) : Nat :=
  match f with
  | .z => 0
  | .r => 1
  | .rr => 2
  | .ri => 2

/-- The handler column says ALU: the 13 operations of spec/45_alu.md. -/
def Mnemonic.isAlu (m : Mnemonic) : Bool :=
  match m with
  | .add | .addi | .sub | .mul | .div | .mod | .cmp | .and | .or | .xor | .not | .shl | .shr => true
  | .hlt | .ret | .push | .pop | .prn | .pra | .call | .jmp | .jeq | .jne | .ldi | .st => false

/-- The handler writes `pc`: branches, calls, returns (spec/43_control_transfer.md). -/
def Mnemonic.setsPc (m : Mnemonic) : Bool :=
  match m with
  | .call | .ret | .jmp | .jeq | .jne => true
  | .hlt | .push | .pop | .prn | .pra | .not | .ldi | .st | .add | .sub | .mul | .div | .mod
  | .addi | .cmp | .and | .or | .xor | .shl | .shr => false

/-- All 25 mnemonics, in the order of the opcode map. -/
def Mnemonic.all : List Mnemonic :=
  [.hlt, .ret, .push, .pop, .prn, .pra, .call, .jmp, .jeq, .jne, .not, .ldi, .st, .add, .sub, .mul,
   .div, .mod, .addi, .cmp, .and, .or, .xor, .shl, .shr]

/-- The instruction of a mnemonic over the two latched operand bytes. A format with fewer operands
ignores the extras (spec/30_encoding.md rule R56). -/
def Mnemonic.build (m : Mnemonic) (a b : Operand) : Instr :=
  match m with
  | .hlt => .hlt
  | .ret => .ret
  | .push => .push a
  | .pop => .pop a
  | .prn => .prn a
  | .pra => .pra a
  | .call => .call a
  | .jmp => .jmp a
  | .jeq => .jeq a
  | .jne => .jne a
  | .not => .not a
  | .ldi => .ldi a b
  | .st => .st a b
  | .add => .add a b
  | .sub => .sub a b
  | .mul => .mul a b
  | .div => .div a b
  | .mod => .mod a b
  | .addi => .addi a b
  | .cmp => .cmp a b
  | .and => .and a b
  | .or => .or a b
  | .xor => .xor a b
  | .shl => .shl a b
  | .shr => .shr a b

/-- The mnemonic of an instruction. -/
def Instr.mnemonic (i : Instr) : Mnemonic :=
  match i with
  | .hlt => .hlt
  | .ret => .ret
  | .push _ => .push
  | .pop _ => .pop
  | .prn _ => .prn
  | .pra _ => .pra
  | .call _ => .call
  | .jmp _ => .jmp
  | .jeq _ => .jeq
  | .jne _ => .jne
  | .not _ => .not
  | .ldi _ _ => .ldi
  | .st _ _ => .st
  | .add _ _ => .add
  | .sub _ _ => .sub
  | .mul _ _ => .mul
  | .div _ _ => .div
  | .mod _ _ => .mod
  | .addi _ _ => .addi
  | .cmp _ _ => .cmp
  | .and _ _ => .and
  | .or _ _ => .or
  | .xor _ _ => .xor
  | .shl _ _ => .shl
  | .shr _ _ => .shr

/-- The operand bytes an instruction has, operand a first. -/
def Instr.operands (i : Instr) : List Operand :=
  match i with
  | .hlt => []
  | .ret => []
  | .push a => [a]
  | .pop a => [a]
  | .prn a => [a]
  | .pra a => [a]
  | .call a => [a]
  | .jmp a => [a]
  | .jeq a => [a]
  | .jne a => [a]
  | .not a => [a]
  | .ldi a imm => [a, imm]
  | .st a b => [a, b]
  | .add a b => [a, b]
  | .sub a b => [a, b]
  | .mul a b => [a, b]
  | .div a b => [a, b]
  | .mod a b => [a, b]
  | .addi a imm => [a, imm]
  | .cmp a b => [a, b]
  | .and a b => [a, b]
  | .or a b => [a, b]
  | .xor a b => [a, b]
  | .shl a b => [a, b]
  | .shr a b => [a, b]

/-- The instruction's length in bytes: one opcode byte and its operand bytes (spec/30_encoding.md rule R50). -/
def Instr.length (i : Instr) : Nat := 1 + i.mnemonic.format.nops

/-! ### The parameter values the spec uses (spec/00_scope.md rule R6) -/

/-- The opcode map of spec/30_encoding.md rule R57. LDI, PRN and HLT are the document's bytes. Bits
7:4 of the others are derived from the document; their bits 3:0 are PRESUMED (the LS-8 table, spec
decision D14, assumption log 1), and ADDI's byte is a DESIGN CHOICE (spec decision D15, log 2). -/
def specOpcodeMap : List (Byte × Mnemonic) :=
  [(0b00000001#8, .hlt), (0b00010001#8, .ret), (0b01000101#8, .push), (0b01000110#8, .pop),
   (0b01000111#8, .prn), (0b01001000#8, .pra), (0b01010000#8, .call), (0b01010100#8, .jmp),
   (0b01010101#8, .jeq), (0b01010110#8, .jne), (0b01101001#8, .not), (0b10000010#8, .ldi),
   (0b10000100#8, .st)]
  ++
  [(0b10100000#8, .add), (0b10100001#8, .sub), (0b10100010#8, .mul), (0b10100011#8, .div),
   (0b10100100#8, .mod), (0b10100101#8, .addi), (0b10100111#8, .cmp), (0b10101000#8, .and),
   (0b10101010#8, .or), (0b10101011#8, .xor), (0b10101100#8, .shl), (0b10101101#8, .shr)]

/-- The parameters at the values the spec uses. `ALU_ROUTED_UNIMPLEMENTED` is empty: DESIGN CHOICE
(spec decision D16, assumption log 3). -/
def specConfig : Config where
  opcodeMap := specOpcodeMap
  aluRoutedUnimplemented := []

/-- What the spec asks of the parameters: the mapping has one opcode byte for each of the 25
instructions and one instruction for each byte, the control bits of every opcode byte agree with its
handler (spec/30_encoding.md rule R62), and the bytes of `ALU_ROUTED_UNIMPLEMENTED` have bit 5 = 1
and are not in the mapping (rule R60). -/
def Config.admissible (c : Config) : Bool :=
  decide ((c.opcodeMap.map Prod.fst).Nodup)
    && decide ((c.opcodeMap.map Prod.snd).Nodup)
    && Mnemonic.all.all (fun m => (c.opcodeMap.map Prod.snd).contains m)
    && c.opcodeMap.all (fun r =>
        opNops r.1 == r.2.format.nops && opAlu r.1 == r.2.isAlu && opSetsPc r.1 == r.2.setsPc)
    && c.aluRoutedUnimplemented.all (fun v => opAlu v && !(c.opcodeMap.map Prod.fst).contains v)

/-! ### Decoding -/

/-- The three values the engine latches at fetch (spec/40_engine.md rule R71, spec/10_state.md rule R24). -/
structure Latched where
  /-- the opcode byte -/
  ir : Byte
  /-- operand a, the byte at `pc + 1` -/
  opa : Operand
  /-- operand b, the byte at `pc + 2` -/
  opb : Operand
  deriving DecidableEq, Repr

/-- Why an opcode byte has no instruction (spec/40_engine.md rule R74 and rule R80). -/
inductive OpcodeReject where
  /-- the byte is in no part of the mapping (spec/30_encoding.md rule R59) -/
  | unknownInstruction
  /-- the byte is routed to the ALU, which does not implement it (spec/45_alu.md rule R124) -/
  | unsupportedAluOperation
  deriving DecidableEq, Repr

/-- Why a list of bytes has no instruction at its head. -/
inductive DecodeReject where
  /-- the list is empty: there is no opcode byte -/
  | noOpcodeByte
  /-- the opcode byte has no instruction -/
  | opcode (r : OpcodeReject)
  deriving DecidableEq, Repr

/-- The dispatch lookup, on the whole byte and on nothing else (spec/40_engine.md rule R74). -/
def lookupOpcode (c : Config) (ir : Byte) : Except OpcodeReject Mnemonic :=
  if c.aluRoutedUnimplemented.contains ir then .error .unsupportedAluOperation
  else
    match c.opcodeMap.lookup ir with
    | some m => .ok m
    | none => .error .unknownInstruction

/-- Dispatch of the latched bytes: the instruction, or the opcode fault that precedes every look at
an operand (spec/40_engine.md rule R74). -/
def decodeLatched (c : Config) (f : Latched) : Except OpcodeReject Instr :=
  match lookupOpcode c f.ir with
  | .ok m => .ok (m.build f.opa f.opb)
  | .error r => .error r

/-- The decoder on any list of bytes: the instruction at its head and the bytes after it. A list that
ends inside the instruction gives absent operands, as the end of memory does (spec/40_engine.md rule R72). -/
def decodeWith (c : Config) (bytes : List Byte) : Except DecodeReject (Instr × List Byte) :=
  match bytes with
  | [] => .error .noOpcodeByte
  | ir :: rest =>
    match decodeLatched c ⟨ir, rest[0]?, rest[1]?⟩ with
    | .ok i => .ok (i, rest.drop i.mnemonic.format.nops)
    | .error r => .error (.opcode r)

/-- The decoder under the parameter values the spec uses. -/
def decode (bytes : List Byte) : Except DecodeReject (Instr × List Byte) := decodeWith specConfig bytes

/-! ### Encoding -/

/-- The opcode byte of a mnemonic (spec/30_encoding.md rule R57). -/
def opcodeOf (c : Config) (m : Mnemonic) : Option Byte :=
  (c.opcodeMap.find? (fun r => r.2 == m)).map Prod.fst

/-- The bytes of a complete instruction: the opcode byte, then operand a, then operand b
(spec/30_encoding.md rule R50 and rule R53). -/
def encodeWith (c : Config) (i : Instr) : Option (List Byte) :=
  if i.complete then (opcodeOf c i.mnemonic).map (fun op => op :: i.operands.filterMap id) else none

/-- The encoder under the parameter values the spec uses. -/
def encode (i : Instr) : Option (List Byte) := encodeWith specConfig i

/-! ### An instruction given as one number, as spec/opcode_table.json numbers bits -/

/-- The three bytes, first byte first, of an instruction whose low `nbits` bits are those of `w` and
whose other bits are 0: bits 7:0 are the opcode byte, bits 15:8 operand a, bits 23:16 operand b. -/
def wordBytes (nbits w : Nat) : List Byte :=
  let v := w % 2 ^ nbits
  [toByte v, toByte (v / 256), toByte (v / 65536)]

/-- The instruction the decoder reads from such a number. -/
def decodeTableWord (nbits w : Nat) : Option Instr :=
  match decode (wordBytes nbits w) with
  | .ok (i, _) => some i
  | .error _ => none

end Sys2Proof
end

