-- ==== Sys2Proof/Machine/Ops.lean ====
section
/-! DEFINITION. The shared operations: memory, registers, address arithmetic, the program-counter
advance, taking a fault, fetch, and the loader's contract. -/

namespace Sys2Proof.Machine

/-! ### Memory (spec/20_memory.md rule R31, spec/10_state.md rule R21) -/

/-- What a cell the loader and the program have not written reads as: 0, by the spec's decision D10,
PRESUMED (assumption log 5). -/
def Memory.unlisted : Byte := 0x00#8

/-- The byte in cell `a`. -/
def Memory.byteAt (m : Memory) (a : Nat) : Byte :=
  match m with
  | [] => Memory.unlisted
  | (k, v) :: r => if k = a then v else Memory.byteAt r a

/-- The list without any entry for cell `a`. -/
def Memory.dropCell (m : Memory) (a : Nat) : Memory :=
  match m with
  | [] => []
  | (k, w) :: r => if k = a then Memory.dropCell r a else (k, w) :: Memory.dropCell r a

/-- The list with an entry for cell `a` before the first higher address. -/
def Memory.addCell (m : Memory) (a : Nat) (v : Byte) : Memory :=
  match m with
  | [] => [(a, v)]
  | (k, w) :: r => if a < k then (a, v) :: (k, w) :: r else (k, w) :: Memory.addCell r a v

/-- Cell `a` takes the byte `v` and no other cell changes; the value an unlisted cell reads as is not
listed, so the canonical form is kept. -/
def Memory.setByte (m : Memory) (a : Nat) (v : Byte) : Memory :=
  if v = Memory.unlisted then Memory.dropCell m a else Memory.addCell (Memory.dropCell m a) a v

/-- The canonical form from address `lo` on: addresses strictly rising from `lo`, below 256, and no
entry equal to what an unlisted address reads as. -/
def Memory.wfFrom (lo : Nat) (m : Memory) : Bool :=
  match m with
  | [] => true
  | (k, v) :: r =>
    decide (lo ≤ k) && decide (k < 256) && decide (v ≠ Memory.unlisted) && Memory.wfFrom (k + 1) r

/-- The canonical form of the whole memory. -/
def Memory.wf (m : Memory) : Bool := Memory.wfFrom 0 m

/-- `MemRead(addr, 1)`; an address held in a byte is always in range (spec/20_memory.md rule R32). -/
def State.readByte (s : State) (a : Byte) : Byte := Memory.byteAt s.mem a.toNat

/-- `MemWrite(addr, 1, v)` (spec/20_memory.md rule R31). -/
def State.writeByte (s : State) (a v : Byte) : State := { s with mem := Memory.setByte s.mem a.toNat v }

/-! ### Registers (spec/10_state.md rule R11) -/

/-- `x[i]`. -/
def State.reg (s : State) (i : RegIdx) : Byte := s.x[i]

/-- `x[i] <- v`: changes `x[i]` only. -/
def State.setReg (s : State) (i : RegIdx) (v : Byte) : State := { s with x := s.x.set i v }

/-- The register that is the stack pointer (spec/10_state.md rule R12). -/
def spIdx : RegIdx := 7

/-- `sp`, another name for `x[7]`. -/
def State.sp (s : State) : Byte := s.reg spIdx

/-- `sp <- v`. -/
def State.setSp (s : State) (v : Byte) : State := s.setReg spIdx v

/-! ### Address arithmetic (spec/20_memory.md rule R32): exact, never wrapped, never clamped -/

/-- `a + n` as an address, or OutOfRangeAddress where it is above 255. -/
def addrPlus (a : Byte) (n : Nat) : Except FaultKind Byte :=
  if a.toNat + n ≤ 255 then .ok (toByte (a.toNat + n)) else .error .outOfRangeAddress

/-- `a - 1` as an address, or OutOfRangeAddress where it is below 0. -/
def addrPred (a : Byte) : Except FaultKind Byte :=
  if a.toNat = 0 then .error .outOfRangeAddress else .ok (toByte (a.toNat - 1))

/-! ### Taking a fault (spec/60_exceptions.md rule R147)

Nothing is saved, no vector is read and control goes nowhere: only the status changes. There is no
return from a fault (rule R148), so no operation undoes this one. -/

/-- `raise K`: `status <- Faulted(K)`, and no other component of the state changes. -/
def raiseFault (k : FaultKind) (s : State) : State := { s with status := .faulted k }

/-- The end of a handler: it either returned the state after its writes, or it raised a fault before
its first write, and then the machine is as before the instruction but Faulted
(spec/40_engine.md rule R77). -/
def settle (s : State) (r : Except FaultKind State) : Host.Outcome State Fault Refusal :=
  match r with
  | .ok t => .next t
  | .error k => .next (raiseFault k s)

/-! ### The program counter (spec/40_engine.md rule R78, spec/10_state.md rule R16) -/

/-- `pc <- t`. -/
def State.setPc (s : State) (t : Byte) : State := { s with pc := t }

/-- `advance(n)`: the sum is exact; above 255 the program counter stays and the machine is Faulted,
with the effects the instruction already had. -/
def advance (n : Nat) (s : State) : State :=
  match addrPlus s.pc n with
  | .ok t => s.setPc t
  | .error k => raiseFault k s

/-! ### The stack (spec/10_state.md rule R22) -/

/-- "Push decrements the pointer before writing": the pointer one lower, or OutOfRangeAddress at 0. -/
def decrementSp (s : State) : Except FaultKind State := do
  let p ← addrPred s.sp
  pure (s.setSp p)

/-! ### Output (spec/10_state.md rule R23) -/

/-- `emit e`. -/
def State.emit (s : State) (e : OutEvent) : State := { s with out := s.out ++ [e] }

/-- `status <- Halted` (spec/44_system.md rule R115). -/
def State.halt (s : State) : State := { s with status := .halted }

/-- `fl <- v`. -/
def State.setFl (s : State) (v : Byte) : State := { s with fl := v }

/-! ### Fetch (spec/40_engine.md rule R71 and rule R72) -/

/-- The operand byte at `pc + k`, absent where that address is above 255: no fault, no wrap. -/
def fetchOperand (s : State) (k : Nat) : Operand :=
  if s.pc.toNat + k ≤ 255 then some (Memory.byteAt s.mem (s.pc.toNat + k)) else none

/-- The opcode byte and the two operand bytes, latched before the handler runs. -/
def fetch (s : State) : Latched where
  ir := s.readByte s.pc
  opa := fetchOperand s 1
  opb := fetchOperand s 2

/-- The fault kind of an opcode byte without an instruction (spec/40_engine.md rule R80). -/
def rejectKind (r : OpcodeReject) : FaultKind :=
  match r with
  | .unknownInstruction => .unknownInstruction
  | .unsupportedAluOperation => .unsupportedAluOperation

/-- The number spec/60_exceptions.md rule R140 gives each kind. -/
def FaultKind.code (k : FaultKind) : Nat :=
  match k with
  | .unknownInstruction => 1
  | .unsupportedAluOperation => 2
  | .divideByZero => 3
  | .outOfRangeAddress => 4

/-! ### The loader's contract (spec/70_reset_and_hazards.md rule R161 and rule R163) -/

/-- Bytes into successive cells from `a` on, in the order given; there is no cell above 255, and a
byte that would go there goes nowhere. -/
def Memory.load (a : Nat) (bytes : List Byte) (m : Memory) : Memory :=
  match bytes with
  | [] => m
  | v :: r => Memory.load (a + 1) r (if a < 256 then Memory.setByte m a v else m)

/-- The state at the start of a run whose image is `image`: the reset state with the image in cells
0, 1, 2, .. and nothing else touched. `image` is the spec's parameter `MEM_INIT`. -/
def State.start (image : List Byte) : State :=
  { State.reset with mem := Memory.load 0 image State.reset.mem }

end Sys2Proof.Machine
end

