-- ==== Sys2Proof/Machine/Alu.lean ====
section
/-! DEFINITION. The ALU (spec/45_alu.md): the operations on two bytes, the shared handler in its
three operand forms, and the 13 instructions. Operands and results are unsigned; every result is the
exact one reduced modulo 256 (rule R121). -/

namespace Sys2Proof.Machine

/-! ### The operations -/

/-- Rule R125 and rule R126. -/
def aluAdd (u v : Byte) : Byte := toByte (u.toNat + v.toNat)

/-- Rule R127: below zero the result wraps upward. -/
def aluSub (u v : Byte) : Byte := BitVec.ofInt 8 ((u.toNat : Int) - (v.toNat : Int))

/-- Rule R128: the low byte of the product. -/
def aluMul (u v : Byte) : Byte := toByte (u.toNat * v.toNat)

/-- Rule R129: the unsigned quotient rounded down; a zero divisor faults. -/
def aluDiv (u v : Byte) : Except FaultKind Byte :=
  if v.toNat = 0 then .error .divideByZero else .ok (toByte (u.toNat / v.toNat))

/-- Rule R130: the unsigned remainder; a zero divisor faults. -/
def aluMod (u v : Byte) : Except FaultKind Byte :=
  if v.toNat = 0 then .error .divideByZero
  else .ok (toByte (u.toNat - v.toNat * (u.toNat / v.toNat)))

/-- Rule R131. -/
def aluAnd (u v : Byte) : Byte := u &&& v

/-- Rule R134. -/
def aluOr (u v : Byte) : Byte := u ||| v

/-- Rule R135. -/
def aluXor (u v : Byte) : Byte := u ^^^ v

/-- Rule R136. -/
def aluNot (u : Byte) : Byte := toByte (255 - u.toNat)

/-- Rule R137: the amount is the whole of `v`, not masked (spec decision D18). -/
def aluShl (u v : Byte) : Byte := toByte (u.toNat * 2 ^ v.toNat)

/-- Rule R138: logical, and the amount is the whole of `v` (spec decision D18). -/
def aluShr (u v : Byte) : Byte := toByte (u.toNat / 2 ^ v.toNat)

/-! ### The shared handler (rule R120, rule R122) -/

/-- `x[a] <- f(x[a], x[b])`, then `advance(3)`; `f` may raise, before the write. -/
def aluRegReg (f : Byte → Byte → Except FaultKind Byte) (oa ob : Operand) (s : State) :
    Except FaultKind State := do
  let (a, b) ← regPair oa ob
  let r ← f (s.reg a) (s.reg b)
  pure (advance 3 (s.setReg a r))

/-- `x[a] <- f(x[a], imm)`, then `advance(3)`. -/
def aluRegImm (f : Byte → Byte → Byte) (oa oimm : Operand) (s : State) : Except FaultKind State := do
  let a ← regOperand oa
  let v ← immOperand oimm
  pure (advance 3 (s.setReg a (f (s.reg a) v)))

/-- `x[a] <- f(x[a])`, then `advance(2)`. -/
def aluReg (f : Byte → Byte) (oa : Operand) (s : State) : Except FaultKind State := do
  let a ← regOperand oa
  pure (advance 2 (s.setReg a (f (s.reg a))))

/-! ### The instructions -/

/-- ADD (rule R125). -/
def execAdd (oa ob : Operand) (s : State) : Host.Outcome State Fault Refusal :=
  settle s (aluRegReg (fun u v => .ok (aluAdd u v)) oa ob s)

/-- ADDI (rule R126). -/
def execAddi (oa oimm : Operand) (s : State) : Host.Outcome State Fault Refusal :=
  settle s (aluRegImm aluAdd oa oimm s)

/-- SUB (rule R127). -/
def execSub (oa ob : Operand) (s : State) : Host.Outcome State Fault Refusal :=
  settle s (aluRegReg (fun u v => .ok (aluSub u v)) oa ob s)

/-- MUL (rule R128). -/
def execMul (oa ob : Operand) (s : State) : Host.Outcome State Fault Refusal :=
  settle s (aluRegReg (fun u v => .ok (aluMul u v)) oa ob s)

/-- DIV (rule R129). -/
def execDiv (oa ob : Operand) (s : State) : Host.Outcome State Fault Refusal :=
  settle s (aluRegReg aluDiv oa ob s)

/-- MOD (rule R130). -/
def execMod (oa ob : Operand) (s : State) : Host.Outcome State Fault Refusal :=
  settle s (aluRegReg aluMod oa ob s)

/-- CMP (rule R133): writes `fl` and nothing else. -/
def execCmp (oa ob : Operand) (s : State) : Host.Outcome State Fault Refusal :=
  settle s do
    let (a, b) ← regPair oa ob
    pure (advance 3 (s.setFl (compareFlags (s.reg a) (s.reg b))))

/-- AND (rule R131). -/
def execAnd (oa ob : Operand) (s : State) : Host.Outcome State Fault Refusal :=
  settle s (aluRegReg (fun u v => .ok (aluAnd u v)) oa ob s)

/-- OR (rule R134). -/
def execOr (oa ob : Operand) (s : State) : Host.Outcome State Fault Refusal :=
  settle s (aluRegReg (fun u v => .ok (aluOr u v)) oa ob s)

/-- XOR (rule R135). -/
def execXor (oa ob : Operand) (s : State) : Host.Outcome State Fault Refusal :=
  settle s (aluRegReg (fun u v => .ok (aluXor u v)) oa ob s)

/-- NOT (rule R136). -/
def execNot (oa : Operand) (s : State) : Host.Outcome State Fault Refusal :=
  settle s (aluReg aluNot oa s)

/-- SHL (rule R137). -/
def execShl (oa ob : Operand) (s : State) : Host.Outcome State Fault Refusal :=
  settle s (aluRegReg (fun u v => .ok (aluShl u v)) oa ob s)

/-- SHR (rule R138). -/
def execShr (oa ob : Operand) (s : State) : Host.Outcome State Fault Refusal :=
  settle s (aluRegReg (fun u v => .ok (aluShr u v)) oa ob s)

end Sys2Proof.Machine
end

