-- ==== Sys2Proof/Machine/Control.lean ====
section
/-! DEFINITION. CALL, RET, JMP, JEQ, JNE (spec/43_control_transfer.md). The handler writes `pc` and
the engine does not advance it. -/

namespace Sys2Proof.Machine

/-- `pc <- x[a]` for the register an operand names. -/
def jumpReg (oa : Operand) (s : State) : Except FaultKind State := do
  let a ← regOperand oa
  pure (s.setPc (s.reg a))

/-- A conditional branch: the operand is examined only when the branch is taken (spec decision D21);
otherwise the handler itself does `advance(2)` (rule R108, rule R109). -/
def branchReg (taken : Bool) (oa : Operand) (s : State) : Except FaultKind State :=
  if taken then jumpReg oa s else .ok (advance 2 s)

/-- CALL (rule R105): the return address `pc + 2` goes to the stack; the target is read after the
decrement, so CALL R7 jumps to the decremented pointer (spec decision D24). -/
def execCall (oa : Operand) (s : State) : Host.Outcome State Fault Refusal :=
  settle s do
    let a ← regOperand oa
    let t ← decrementSp s
    let ret ← addrPlus s.pc 2
    pure ((t.writeByte t.sp ret).setPc (t.reg a))

/-- RET (rule R106). -/
def execRet (s : State) : Host.Outcome State Fault Refusal :=
  settle s do
    let p ← addrPlus s.sp 1
    pure ((s.setPc (s.readByte s.sp)).setSp p)

/-- JMP (rule R107). -/
def execJmp (oa : Operand) (s : State) : Host.Outcome State Fault Refusal :=
  settle s (jumpReg oa s)

/-- JEQ (rule R108). -/
def execJeq (oa : Operand) (s : State) : Host.Outcome State Fault Refusal :=
  settle s (branchReg (flagE s.fl) oa s)

/-- JNE (rule R109). -/
def execJne (oa : Operand) (s : State) : Host.Outcome State Fault Refusal :=
  settle s (branchReg (!flagE s.fl) oa s)

end Sys2Proof.Machine
end

