-- ==== Sys2Proof/Machine/DataMovement.lean ====
section
/-! DEFINITION. LDI, ST, PRN, PRA (spec/41_data_movement_and_output.md). -/

namespace Sys2Proof.Machine

/-- Output of the register an operand names, then `advance(2)`; `event` says which event. -/
def printReg (event : Byte → OutEvent) (oa : Operand) (s : State) : Except FaultKind State := do
  let a ← regOperand oa
  pure (advance 2 (s.emit (event (s.reg a))))

/-- LDI (rule R90). -/
def execLdi (oa oimm : Operand) (s : State) : Host.Outcome State Fault Refusal :=
  settle s do
    let a ← regOperand oa
    let v ← immOperand oimm
    pure (advance 3 (s.setReg a v))

/-- ST (rule R91). -/
def execSt (oa ob : Operand) (s : State) : Host.Outcome State Fault Refusal :=
  settle s do
    let (a, b) ← regPair oa ob
    pure (advance 3 (s.writeByte (s.reg a) (s.reg b)))

/-- PRN (rule R92). -/
def execPrn (oa : Operand) (s : State) : Host.Outcome State Fault Refusal :=
  settle s (printReg .num oa s)

/-- PRA (rule R93). -/
def execPra (oa : Operand) (s : State) : Host.Outcome State Fault Refusal :=
  settle s (printReg .chr oa s)

end Sys2Proof.Machine
end

