-- ==== Sys2Proof/Machine/Stack.lean ====
section
/-! DEFINITION. PUSH and POP (spec/42_stack.md). -/

namespace Sys2Proof.Machine

/-- PUSH (rule R100): the pointer is decremented first, and `x[a]` is read after that, so PUSH R7
pushes the decremented pointer (spec decision D24). -/
def execPush (oa : Operand) (s : State) : Host.Outcome State Fault Refusal :=
  settle s do
    let a ← regOperand oa
    let t ← decrementSp s
    pure (advance 2 (t.writeByte t.sp (t.reg a)))

/-- POP (rule R101): `x[a]` is written first, and the increment applies to the pointer after that, so
POP R7 ends with the popped value plus 1 (spec decision D24). -/
def execPop (oa : Operand) (s : State) : Host.Outcome State Fault Refusal :=
  settle s do
    let a ← regOperand oa
    let t := s.setReg a (s.readByte s.sp)
    let p ← addrPlus t.sp 1
    pure (advance 2 (t.setSp p))

end Sys2Proof.Machine
end

