-- ==== Sys2Proof/Machine/System.lean ====
section
/-! DEFINITION. HLT (spec/44_system.md). -/

namespace Sys2Proof.Machine

/-- HLT (rule R115): the status becomes Halted; `pc` stays and nothing can fault (spec decision D11). -/
def execHlt (s : State) : Host.Outcome State Fault Refusal :=
  settle s (.ok s.halt)

end Sys2Proof.Machine
end

