-- ==== Sys2Proof/Machine/Step.lean ====
section
/-! DEFINITION. One step of the engine (spec/40_engine.md rule R80): fetch, decode, dispatch, run. -/

namespace Sys2Proof.Machine

/-- One step under the parameters `c`. A step exists only while the status is Running (rule R79);
an opcode byte without an instruction faults before any operand is looked at (rule R74). -/
def stepWith (c : Config) (s : State) : Host.Outcome State Fault Refusal :=
  match s.status with
  | .running =>
    match decodeLatched c (fetch s) with
    | .ok i => exec i s
    | .error r => .next (raiseFault (rejectKind r) s)
  | .halted => .fault .machineHalted
  | .faulted k => .fault (.machineFaulted k)

/-- One step under the parameter values the spec uses. -/
def step (s : State) : Host.Outcome State Fault Refusal := stepWith specConfig s

/-- The state with an instruction, given as one number (spec/opcode_table.json's numbering), stored
at the program counter: it stands for the loader (assumption log 6). Cells above 255 do not exist, so
a byte that would lie there is not stored. -/
def State.withFetchWord (s : State) (nbits w : Nat) : State :=
  { s with mem := Memory.load s.pc.toNat (wordBytes nbits w) s.mem }

end Sys2Proof.Machine
end

