-- ==== Sys2Proof/Safety.lean ====
section
/-! DEFINITION. What counts as a safe state, and the terms the claims are stated in: what an
instruction may write, where it stores, what it emits, and when it faults. -/

namespace Sys2Proof.Machine

/-- The values the flags register can hold: 0 before the first CMP, and one of E, G, L alone after
it (spec/10_state.md rule R17 and rule R18). -/
def flagsLegal (fl : Byte) : Bool :=
  fl == 0b00000000#8 || fl == 0b00000001#8 || fl == 0b00000010#8 || fl == 0b00000100#8

/-- The invariant of the machine: the memory is in its one canonical form (so equal memories are
equal data) and the flags register holds a legal value (bits 7:3 are 0 and at most one of E, G, L is set). -/
structure State.Inv (s : State) : Prop where
  memory : Memory.wf s.mem = true
  flags : flagsLegal s.fl = true

end Sys2Proof.Machine

namespace Sys2Proof.Claim

open Sys2Proof.Machine

/-- The state a fault leaves: only the status changes (spec/60_exceptions.md rule R147). -/
def afterFault (k : FaultKind) (s : State) : State := { s with status := .faulted k }

/-- The memory from the program counter to address 255, lowest address first. -/
def bytesFromPc (s : State) : List Byte :=
  (List.range (256 - s.pc.toNat)).map (fun k => Memory.byteAt s.mem (s.pc.toNat + k))

/-- A state change lifted to the outcome of a step. -/
def mapNext (g : State → State) (o : Host.Outcome State Fault Refusal) : Host.Outcome State Fault Refusal :=
  match o with
  | .next t => .next (g t)
  | .fault r => .fault r
  | .refused r => .refused r

/-- The "writes" column of the register table after spec/10_state.md rule R11: the instruction may
change register `r`. -/
def mayWriteReg (i : Instr) (r : RegIdx) : Bool :=
  match i with
  | .hlt | .prn _ | .pra _ | .jmp _ | .jeq _ | .jne _ | .st _ _ | .cmp _ _ => false
  | .ret | .push _ | .call _ => r == 7
  | .pop a => a == regByte r || r == 7
  | .not a | .ldi a _ | .addi a _ | .add a _ | .sub a _ | .mul a _ | .div a _ | .mod a _
  | .and a _ | .or a _ | .xor a _ | .shl a _ | .shr a _ => a == regByte r

/-- The cell an instruction stores to and the byte it stores, by the operations its meaning uses
(the "writes" column of the table of spec/20_memory.md rule R35); `none` where it stores nothing. -/
def storedCell (i : Instr) (s : State) : Option (Byte × Byte) :=
  match i with
  | .st a b =>
    match regPair a b with
    | .ok (a, b) => some (s.reg a, s.reg b)
    | .error _ => none
  | .push a =>
    match regOperand a, decrementSp s with
    | .ok a, .ok t => some (t.sp, t.reg a)
    | _, _ => none
  | .call a =>
    match regOperand a, decrementSp s, addrPlus s.pc 2 with
    | .ok _, .ok t, .ok ret => some (t.sp, ret)
    | _, _, _ => none
  | .hlt | .ret | .pop _ | .prn _ | .pra _ | .jmp _ | .jeq _ | .jne _ | .not _ | .ldi _ _
  | .add _ _ | .sub _ _ | .mul _ _ | .div _ _ | .mod _ _ | .addi _ _ | .cmp _ _ | .and _ _
  | .or _ _ | .xor _ _ | .shl _ _ | .shr _ _ => none

/-- The events an instruction emits: one for PRN and PRA on a legal operand, none otherwise
(spec/10_state.md rule R23). -/
def emitted (i : Instr) (s : State) : List OutEvent :=
  match i with
  | .prn a =>
    match regOperand a with
    | .ok a => [.num (s.reg a)]
    | .error _ => []
  | .pra a =>
    match regOperand a with
    | .ok a => [.chr (s.reg a)]
    | .error _ => []
  | .hlt | .ret | .push _ | .pop _ | .call _ | .jmp _ | .jeq _ | .jne _ | .not _ | .ldi _ _ | .st _ _
  | .add _ _ | .sub _ _ | .mul _ _ | .div _ _ | .mod _ _ | .addi _ _ | .cmp _ _ | .and _ _
  | .or _ _ | .xor _ _ | .shl _ _ | .shr _ _ => []

/-! ### The causes of a fault (spec/60_exceptions.md rule R144 and rule R145) -/

/-- Cases a and b: an operand the instruction uses is absent, or is no register index where it must be. -/
def operandCause (i : Instr) (s : State) : Bool :=
  match i with
  | .hlt | .ret => false
  | .push a | .pop a | .prn a | .pra a | .call a | .jmp a | .not a => !Operand.isReg a
  | .jeq a => s.fl.getLsbD 0 && !Operand.isReg a
  | .jne a => !s.fl.getLsbD 0 && !Operand.isReg a
  | .ldi a imm | .addi a imm => !Operand.isReg a || !Operand.present imm
  | .st a b | .add a b | .sub a b | .mul a b | .div a b | .mod a b | .cmp a b | .and a b | .or a b
  | .xor a b | .shl a b | .shr a b => !Operand.isReg a || !Operand.isReg b

/-- Cases c and d: the stack pointer would go below 0 or above 255. -/
def pointerCause (i : Instr) (s : State) : Bool :=
  match i with
  | .push _ | .call _ => s.x[7] == 0#8
  | .pop a => if a = regByte 7 then Memory.byteAt s.mem s.x[7].toNat == 255#8 else s.x[7] == 255#8
  | .ret => s.x[7] == 255#8
  | .hlt | .prn _ | .pra _ | .jmp _ | .jeq _ | .jne _ | .not _ | .ldi _ _ | .st _ _
  | .add _ _ | .sub _ _ | .mul _ _ | .div _ _ | .mod _ _ | .addi _ _ | .cmp _ _ | .and _ _
  | .or _ _ | .xor _ _ | .shl _ _ | .shr _ _ => false

/-- Case e: the return address of a CALL would be above 255. -/
def returnCause (i : Instr) (s : State) : Bool :=
  match i with
  | .call _ => decide (255 < s.pc.toNat + 2)
  | .hlt | .ret | .push _ | .pop _ | .prn _ | .pra _ | .jmp _ | .jeq _ | .jne _ | .not _ | .ldi _ _
  | .st _ _ | .add _ _ | .sub _ _ | .mul _ _ | .div _ _ | .mod _ _ | .addi _ _ | .cmp _ _ | .and _ _
  | .or _ _ | .xor _ _ | .shl _ _ | .shr _ _ => false

/-- Case f: the program counter would go above 255. -/
def advanceCause (i : Instr) (s : State) : Bool :=
  match i with
  | .hlt | .ret | .call _ | .jmp _ => false
  | .jeq _ => !s.fl.getLsbD 0 && decide (255 < s.pc.toNat + 2)
  | .jne _ => s.fl.getLsbD 0 && decide (255 < s.pc.toNat + 2)
  | .push _ | .pop _ | .prn _ | .pra _ | .not _ => decide (255 < s.pc.toNat + 2)
  | .ldi _ _ | .st _ _ | .add _ _ | .sub _ _ | .mul _ _ | .div _ _ | .mod _ _ | .addi _ _ | .cmp _ _
  | .and _ _ | .or _ _ | .xor _ _ | .shl _ _ | .shr _ _ => decide (255 < s.pc.toNat + 3)

/-- DIV or MOD on two register operands whose divisor register holds 0. -/
def zeroDivisor (i : Instr) (s : State) : Prop :=
  ∃ a b : RegIdx, (i = .div (regByte a) (regByte b) ∨ i = .mod (regByte a) (regByte b)) ∧ s.x[b] = 0#8

/-! ### The shape of an instruction's rule -/

/-- The whole rule of a 3-byte instruction with two register operands whose handler writes `effect`
and then advances, where `ok` says when the operands raise nothing further: its encoding; completion
for `pc <= 252`; the advance fault at `pc = 253`, after the effect; and, with nothing written, the
operand faults, which cover every `pc >= 254` since an operand byte is absent there. The opcode byte
is the spec's decision D14 (assumption log 1), the operand faults its decisions D5 and D6 (log 8), the
advance its decision D4 (log 9). -/
def ThreeByteRule (mk : Operand → Operand → Instr) (opc : Byte) (ok : RegIdx → RegIdx → State → Prop)
    (effect : RegIdx → RegIdx → State → State) : Prop :=
  (∀ va vb : Byte, encode (mk (some va) (some vb)) = some [opc, va, vb]) ∧
  (∀ (a b : RegIdx) (s : State), ok a b s → s.pc.toNat ≤ 252 →
    exec (mk (regByte a) (regByte b)) s = .next { effect a b s with pc := toByte (s.pc.toNat + 3) }) ∧
  (∀ (a b : RegIdx) (s : State), ok a b s → s.pc.toNat = 253 →
    exec (mk (regByte a) (regByte b)) s = .next (afterFault .outOfRangeAddress (effect a b s))) ∧
  (∀ (oa ob : Operand) (s : State), Operand.isReg oa = false ∨ Operand.isReg ob = false →
    exec (mk oa ob) s = .next (afterFault .outOfRangeAddress s)) ∧
  (∀ s : State, s.status = .running → Memory.byteAt s.mem s.pc.toNat = opc → 254 ≤ s.pc.toNat →
    step s = .next (afterFault .outOfRangeAddress s))

/-- The same for a register operand and an immediate, which every byte is legal for (decisions D5 and
D6, log 8, and D4, log 9). -/
def ImmediateRule (mk : Operand → Operand → Instr) (opc : Byte)
    (effect : RegIdx → Byte → State → State) : Prop :=
  (∀ va v : Byte, encode (mk (some va) (some v)) = some [opc, va, v]) ∧
  (∀ (a : RegIdx) (v : Byte) (s : State), s.pc.toNat ≤ 252 →
    exec (mk (regByte a) (some v)) s = .next { effect a v s with pc := toByte (s.pc.toNat + 3) }) ∧
  (∀ (a : RegIdx) (v : Byte) (s : State), s.pc.toNat = 253 →
    exec (mk (regByte a) (some v)) s = .next (afterFault .outOfRangeAddress (effect a v s))) ∧
  (∀ (oa ov : Operand) (s : State), Operand.isReg oa = false ∨ ov = none →
    exec (mk oa ov) s = .next (afterFault .outOfRangeAddress s)) ∧
  (∀ s : State, s.status = .running → Memory.byteAt s.mem s.pc.toNat = opc → 254 ≤ s.pc.toNat →
    step s = .next (afterFault .outOfRangeAddress s))

/-- The same for a 2-byte instruction with one register operand: completion for `pc <= 253`, the
advance fault at `pc = 254`, the operand absent at `pc = 255` (decisions D14, log 1, D5 and D6, log 8,
and D4, log 9). -/
def TwoByteRule (mk : Operand → Instr) (opc : Byte) (ok : RegIdx → State → Prop)
    (effect : RegIdx → State → State) : Prop :=
  (∀ va : Byte, encode (mk (some va)) = some [opc, va]) ∧
  (∀ (a : RegIdx) (s : State), ok a s → s.pc.toNat ≤ 253 →
    exec (mk (regByte a)) s = .next { effect a s with pc := toByte (s.pc.toNat + 2) }) ∧
  (∀ (a : RegIdx) (s : State), ok a s → s.pc.toNat = 254 →
    exec (mk (regByte a)) s = .next (afterFault .outOfRangeAddress (effect a s))) ∧
  (∀ (oa : Operand) (s : State), Operand.isReg oa = false →
    exec (mk oa) s = .next (afterFault .outOfRangeAddress s)) ∧
  (∀ s : State, s.status = .running → Memory.byteAt s.mem s.pc.toNat = opc → s.pc.toNat = 255 →
    step s = .next (afterFault .outOfRangeAddress s))

end Sys2Proof.Claim
end

