-- ==== Sys2Proof/Certificates/Slice0/Obligations.lean ====
section
/-! DEFINITION. The statements for the provers, each from the numbered rules of spec/. Where a
statement rests on one of the spec's own decisions D<n> (spec/92_eei_decisions.md), its docstring
names the decision and the log entry. Wherever a statement says that something faults, the status
Faulted and what the fault keeps are the spec's decision D12, and that it is a next state is the
model's choice (log 10). -/

open Sys2Proof Sys2Proof.Machine Sys2Proof.Claim

/-! ### Reset, registers, memory -/

/-- R162: whatever the image, a run starts at address 0, the first fetch takes `mem[0]`, and the
stack pointer is ready at 0xF4. -/
def Obligations.RunStartsAtAddressZero : Prop :=
  ∀ image : List Byte,
    (State.start image).pc = 0x00#8 ∧ (State.start image).status = .running ∧
    (State.start image).x[7] = 0xF4#8 ∧
    (fetch (State.start image)).ir = Memory.byteAt (State.start image).mem 0

/-- The reset table of R26. R0..R6 and FL at 0 are the spec's decision D9 (log 4), every unwritten
cell at 0 is its decision D10 (log 5), the empty output its decision D17 (log 13). -/
def Obligations.ResetTable : Prop :=
  (∀ i : RegIdx, State.reset.x[i] = if i = 7 then 0xF4#8 else 0x00#8) ∧
  State.reset.pc = 0x00#8 ∧ State.reset.fl = 0x00#8 ∧ State.reset.status = .running ∧
  State.reset.out = [] ∧ ∀ n : Nat, Memory.byteAt State.reset.mem n = 0x00#8

/-- The loader's contract, R161 and R163: the image is in cells 0, 1, 2, .. in the order given, and
no register, `pc`, flag, status or output is touched. The 0 in the cells above the image is the spec's
decision D10 (log 5). That the loaded memory is in canonical form (`Memory.wf`) is no part of the
contract: the form is the model's own choice (log 7). -/
def Obligations.LoadedImageIsInMemory : Prop :=
  ∀ image : List Byte, image.length ≤ 256 →
    (∀ n : Nat, n < 256 → Memory.byteAt (State.start image).mem n = image.getD n 0x00#8) ∧
    Memory.wf (State.start image).mem = true ∧
    (State.start image).x = State.reset.x ∧ (State.start image).pc = State.reset.pc ∧
    (State.start image).fl = State.reset.fl ∧ (State.start image).status = State.reset.status ∧
    (State.start image).out = State.reset.out

/-- R11: a read gives the value last written, a write changes that register only, and an index above
7 never reaches the register file. That it raises OutOfRangeAddress, with no mask and no clamp, is the
spec's decision D6 (R76, log 8). -/
def Obligations.RegisterFileReadWrite : Prop :=
  (∀ (s : State) (i j : RegIdx) (v : Byte), (s.setReg i v).reg j = if j = i then v else s.reg j) ∧
  (∀ (s : State) (i : RegIdx) (v : Byte), (s.setReg i v).mem = s.mem ∧ (s.setReg i v).pc = s.pc ∧
    (s.setReg i v).fl = s.fl ∧ (s.setReg i v).status = s.status ∧ (s.setReg i v).out = s.out) ∧
  (∀ v : Byte, 7 < v.toNat → ridx v = .error .outOfRangeAddress)

/-- R31: a read gives the byte last written to the cell; a write changes exactly one cell and no
register or other state. -/
def Obligations.MemoryReadWrite : Prop :=
  ∀ (s : State) (a v : Byte),
    (∀ b : Byte, (s.writeByte a v).readByte b = if b = a then v else s.readByte b) ∧
    (s.writeByte a v).x = s.x ∧ (s.writeByte a v).pc = s.pc ∧ (s.writeByte a v).fl = s.fl ∧
    (s.writeByte a v).status = s.status ∧ (s.writeByte a v).out = s.out

/-- The model's memory form is canonical (log 7): two memories in the form that agree on the 256
cells of R21 are the same data. -/
def Obligations.EqualCellsAreEqualMemories : Prop :=
  ∀ m m' : Memory, Memory.wf m = true → Memory.wf m' = true →
    (∀ n : Nat, n < 256 → Memory.byteAt m n = Memory.byteAt m' n) → m = m'

/-- The invariant holds at reset, and at the start of a run of any image. It rests on `fl` = 0 at
reset, the spec's decision D9 (log 4), and its memory half is the canonical form, the model's own
choice (log 7), which with cells unwritten at 0 is decision D10 (log 5). -/
def Obligations.StartMeetsInvariant : Prop :=
  State.reset.Inv ∧ ∀ image : List Byte, (State.start image).Inv

/-- Every step, under any parameters, keeps the invariant: the flags register stays one of 0, E, G, L
(R17, R18), and the memory stays in canonical form. The form is the model's own choice (log 7); R31
says only what a read and a write of a cell do. -/
def Obligations.StepKeepsInvariant : Prop :=
  ∀ (c : Config) (s t : State), s.Inv → stepWith c s = .next t → t.Inv

/-- Every run, of any length, from any state that meets the invariant, keeps it: the flags half is R17
and R18; the memory half is the canonical form, the model's own choice (log 7). -/
def Obligations.RunKeepsInvariant : Prop :=
  ∀ (n : Nat) (s t : State), s.Inv → Host.Core.run Sys2Proof.core n s = .next t → t.Inv

/-! ### Encoding and decoding -/

/-- Under every admissible choice of the parameters of R6, decoding the bytes of a complete
instruction, whatever follows them, gives the instruction with every operand byte it had, and the
bytes are as many as R50 and R53 say. -/
def Obligations.DecodeOfEncode : Prop :=
  ∀ (c : Config) (i : Instr), c.admissible = true → i.complete = true →
    ∃ bytes : List Byte, encodeWith c i = some bytes ∧ bytes.length = i.length ∧
      ∀ rest : List Byte, decodeWith c (bytes ++ rest) = .ok (i, rest)

/-- The other direction: what decodes to a complete instruction is its encoding and the bytes after
it, so each instruction has one encoding. -/
def Obligations.EncodeOfDecode : Prop :=
  ∀ (c : Config) (bytes rest : List Byte) (i : Instr), c.admissible = true →
    decodeWith c bytes = .ok (i, rest) → i.complete = true →
    ∃ front : List Byte, encodeWith c i = some front ∧ bytes = front ++ rest

/-- R57 and R59: exactly these 25 opcode bytes have an instruction, the one the table says, and the
other 231 are unknown. The low four bits of 21 of them are the spec's decision D14 (log 1), ADDI's
byte its decision D15 (log 2), that no byte is routed to the ALU without an operation its decision D16
(log 3), and that the bytes of other LS-8 instructions and all of `11xxxxxx` are unknown its decisions
D25 and D20 (log 15). -/
def Obligations.ExactlyTheMappedBytesDecode : Prop :=
  ∀ v : Byte, lookupOpcode specConfig v =
    match [(0x01#8, Mnemonic.hlt), (0x11#8, .ret), (0x45#8, .push), (0x46#8, .pop), (0x47#8, .prn),
        (0x48#8, .pra), (0x50#8, .call), (0x54#8, .jmp), (0x55#8, .jeq), (0x56#8, .jne),
        (0x69#8, .not), (0x82#8, .ldi), (0x84#8, .st), (0xA0#8, .add), (0xA1#8, .sub), (0xA2#8, .mul),
        (0xA3#8, .div), (0xA4#8, .mod), (0xA5#8, .addi), (0xA7#8, .cmp), (0xA8#8, .and), (0xAA#8, .or),
        (0xAB#8, .xor), (0xAC#8, .shl), (0xAD#8, .shr)].lookup v with
    | some m => .ok m
    | none => .error .unknownInstruction

/-- Written-out words decode to what they stand for: the document's program (R58), and one word of
every other family, with the bytes of R57 (spec decisions D14 and D15, logs 1 and 2). -/
def Obligations.WrittenWordsDecode : Prop :=
  decode [0b10000010#8, 0b00000000#8, 0b00001000#8, 0b01000111#8] =
    .ok (.ldi (regByte 0) (some 8#8), [0b01000111#8]) ∧
  decode [0b01000111#8, 0b00000000#8, 0b00000001#8] = .ok (.prn (regByte 0), [0b00000001#8]) ∧
  decode [0b00000001#8] = .ok (.hlt, []) ∧
  decode [0b01000101#8, 0b00000011#8] = .ok (.push (regByte 3), []) ∧
  decode [0b01010000#8, 0b00000010#8] = .ok (.call (regByte 2), []) ∧
  decode [0b10100001#8, 0b00000001#8, 0b00000010#8] = .ok (.sub (regByte 1) (regByte 2), []) ∧
  decode [0b10100101#8, 0b00000010#8, 0b00001010#8] = .ok (.addi (regByte 2) (some 10#8), []) ∧
  decode [0b01101001#8, 0b00000001#8, 0b00000001#8] = .ok (.not (regByte 1), [0b00000001#8])

/-! ### The engine -/

/-- R75 and R80: when the bytes at the program counter decode to an instruction, the step of a
Running machine is the meaning of that instruction on that state; the step does nothing else (the
meaning itself advances `pc`). -/
def Obligations.StepRunsTheDecodedInstruction : Prop :=
  (∀ (c : Config) (s : State) (i : Instr) (rest : List Byte), s.status = .running →
    decodeWith c (bytesFromPc s) = .ok (i, rest) → stepWith c s = exec i s) ∧
  (∀ (s : State) (i : Instr) (rest : List Byte), s.status = .running →
    decode (bytesFromPc s) = .ok (i, rest) → step s = exec i s)

/-- R71 and R72 (spec decision D5, log 8): the fetch takes the opcode byte and the two bytes after
it, a byte beyond address 255 is absent, and nothing wraps to address 0 or 1. -/
def Obligations.FetchAtTheEndOfMemory : Prop :=
  ∀ s : State, (fetch s).ir = Memory.byteAt s.mem s.pc.toNat ∧
    (s.pc.toNat ≤ 254 → (fetch s).opa = some (Memory.byteAt s.mem (s.pc.toNat + 1))) ∧
    (s.pc.toNat = 255 → (fetch s).opa = none) ∧
    (s.pc.toNat ≤ 253 → (fetch s).opb = some (Memory.byteAt s.mem (s.pc.toNat + 2))) ∧
    (254 ≤ s.pc.toNat → (fetch s).opb = none)

/-- R43: a stored byte is what any later fetch of that cell gives, as an opcode and as an operand;
and an instruction that overwrites its own bytes executes with the old ones: an ST whose operands are
the bytes at `pc + 1` and `pc + 2` stores with them, wherever it stores. -/
def Obligations.StoresAreSeenByTheNextFetchOnly : Prop :=
  (∀ (s : State) (a v p : Byte), (fetch { s.writeByte a v with pc := p }).ir =
    if p = a then v else (fetch { s with pc := p }).ir) ∧
  (∀ (s : State) (a v p : Byte), (fetch { s.writeByte a v with pc := p }).opa =
    if p.toNat + 1 = a.toNat then some v else (fetch { s with pc := p }).opa) ∧
  (∀ (s : State) (a v p : Byte), (fetch { s.writeByte a v with pc := p }).opb =
    if p.toNat + 2 = a.toNat then some v else (fetch { s with pc := p }).opb) ∧
  (∀ (s : State) (a b : RegIdx), s.status = .running → s.pc.toNat ≤ 252 →
    lookupOpcode specConfig (Memory.byteAt s.mem s.pc.toNat) = .ok .st →
    some (Memory.byteAt s.mem (s.pc.toNat + 1)) = regByte a →
    some (Memory.byteAt s.mem (s.pc.toNat + 2)) = regByte b →
    step s = .next { s with mem := Memory.setByte s.mem s.x[a].toNat s.x[b],
                            pc := toByte (s.pc.toNat + 3) })

/-- R142 (the status Faulted and what a fault keeps: spec decision D12, log 10): the opcode
byte alone raises UnknownInstruction, exactly when it is in no part of the mapping; nothing
but the status changes, so `pc` keeps its address. -/
def Obligations.UnknownOpcodeFaults : Prop :=
  ∀ (c : Config) (s : State), s.status = .running →
    if Memory.byteAt s.mem s.pc.toNat ∉ c.opcodeMap.map Prod.fst ∧
        Memory.byteAt s.mem s.pc.toNat ∉ c.aluRoutedUnimplemented then
      stepWith c s = .next (afterFault .unknownInstruction s)
    else ∀ t : State, stepWith c s = .next t → t.status ≠ .faulted .unknownInstruction

/-- R124 and R143 (spec decision D16, log 3): a byte routed to the ALU that the ALU lacks raises
UnsupportedAluOperation before any operand is looked at, nothing else raises it, and with the
parameter at its default it never occurs. -/
def Obligations.UnsupportedAluOperationFaults : Prop :=
  (∀ (c : Config) (s : State), s.status = .running →
    if Memory.byteAt s.mem s.pc.toNat ∈ c.aluRoutedUnimplemented then
      stepWith c s = .next (afterFault .unsupportedAluOperation s)
    else ∀ t : State, stepWith c s = .next t → t.status ≠ .faulted .unsupportedAluOperation) ∧
  (∀ s t : State, step s = .next t → t.status ≠ .faulted .unsupportedAluOperation)

/-- R60 (spec decision D16, log 3): whether a byte is reported as UnknownInstruction or as
UnsupportedAluOperation is the only thing the parameter `ALU_ROUTED_UNIMPLEMENTED` changes. -/
def Obligations.RoutedParameterChangesOnlyTheKind : Prop :=
  ∀ (c c' : Config) (s : State), c.admissible = true → c'.admissible = true →
    c.opcodeMap = c'.opcodeMap →
    stepWith c s = stepWith c' s ∨
    ∃ k k' : FaultKind, stepWith c s = .next (afterFault k s) ∧ stepWith c' s = .next (afterFault k' s) ∧
      (k = .unknownInstruction ∨ k = .unsupportedAluOperation) ∧
      (k' = .unknownInstruction ∨ k' = .unsupportedAluOperation)

/-- R62, R73 and R78, under any admissible parameters: an instruction whose opcode has bit 4 = 0 and
after which the machine still runs has advanced `pc` by 1 plus bits 7:6 of the opcode byte. That the
advance never wraps is the spec's decision D4 (log 9). -/
def Obligations.AdvanceFollowsTheControlBits : Prop :=
  ∀ (c : Config) (s t : State), c.admissible = true → stepWith c s = .next t → t.status = .running →
    (Memory.byteAt s.mem s.pc.toNat).getLsbD 4 = false →
    t.pc.toNat = s.pc.toNat + 1 + (Memory.byteAt s.mem s.pc.toNat).toNat / 64

/-- R16 and R78 (spec decision D4, log 9): the advance is exact; above 255 the program counter stays
and the machine is Faulted(OutOfRangeAddress), with all else kept. -/
def Obligations.AdvanceNeverWraps : Prop :=
  ∀ (n : Nat) (s : State),
    (s.pc.toNat + n ≤ 255 → advance n s = { s with pc := toByte (s.pc.toNat + n) } ∧
      (advance n s).pc.toNat = s.pc.toNat + n) ∧
    (255 < s.pc.toNat + n → advance n s = afterFault .outOfRangeAddress s)

/-- R79 (the status Faulted: spec decision D12, log 10; what the model answers where there is no step:
log 16): a step exists exactly when the status is Running. In Halted and in Faulted the machine has
no step and no longer run; a Running machine always takes one. -/
def Obligations.StepExistsOnlyWhenRunning : Prop :=
  (∀ s : State, s.status = .running → ∃ t : State, step s = .next t) ∧
  (∀ s : State, s.status = .halted → step s = .fault .machineHalted) ∧
  (∀ (s : State) (k : FaultKind), s.status = .faulted k → step s = .fault (.machineFaulted k)) ∧
  (∀ (s t : State) (n : Nat), s.status ≠ .running → Host.Core.run Sys2Proof.core (n + 1) s ≠ .next t)

/-- Every instruction answers a next state in every state and with every operand, absent or out of
range ones too: none of the 25 ends in a fault of the model or in a refusal. R80 makes the step total
while the status is Running. That a fault the spec describes is a next state is the model's own choice
over the spec's decision D12 (log 10), and so is that `exec` answers in Halted and Faulted states too
(log 16), where `step` never calls it. -/
def Obligations.EveryInstructionTakesItsStep : Prop :=
  ∀ (i : Instr) (s : State), ∃ t : State, exec i s = .next t

/-- R19 (spec decision D12, log 10): a step goes from Running only; it ends Halted exactly when the
instruction is HLT. -/
def Obligations.OnlyHltHalts : Prop :=
  ∀ s t : State, step s = .next t →
    s.status = .running ∧ (t.status = .halted ↔ Memory.byteAt s.mem s.pc.toNat = 0x01#8)

/-! ### Faults -/

/-- R147 (spec decision D12, log 10), for every step: a fault leaves `pc` at the instruction's opcode
byte and changes nothing but the status, except the advance fault (case f of R144), which comes after
the effects of an instruction that does not set `pc` itself, where `pc` plus its length is above 255. -/
def Obligations.FaultsArePrecise : Prop :=
  ∀ (s t : State) (k : FaultKind), step s = .next t → t.status = .faulted k →
    t.pc = s.pc ∧
    (t = afterFault k s ∨
      (k = .outOfRangeAddress ∧ (Memory.byteAt s.mem s.pc.toNat).getLsbD 4 = false ∧
        255 < s.pc.toNat + 1 + (Memory.byteAt s.mem s.pc.toNat).toNat / 64))

/-- R145 (the status Faulted and what a fault keeps: spec decision D12, log 10): DivideByZero
is raised by DIV and MOD and by nothing else, exactly when the divisor register holds 0 (whatever
the dividend), and nothing but the status changes. -/
def Obligations.DivideByZeroExactly : Prop :=
  ∀ (i : Instr) (s t : State), s.status = .running → exec i s = .next t →
    (t.status = .faulted .divideByZero ↔ zeroDivisor i s) ∧
    (zeroDivisor i s → t = afterFault .divideByZero s)

/-- R144 and R146 (spec decisions D3 to D8, D13 and D21; logs 8 to 12): an instruction raises
OutOfRangeAddress in exactly the cases a to f of the table, where the advance (case f) comes after
the division check. -/
def Obligations.OutOfRangeExactly : Prop :=
  ∀ (i : Instr) (s t : State), s.status = .running → exec i s = .next t →
    (t.status = .faulted .outOfRangeAddress ↔
      operandCause i s = true ∨ pointerCause i s = true ∨ returnCause i s = true ∨
        (advanceCause i s = true ∧ ¬ zeroDivisor i s))

/-! ### What an instruction leaves unchanged, for all 25 and every operand -/

/-- The register table after R11: a register that the instruction does not write keeps its value. -/
def Obligations.RegisterFrame : Prop :=
  ∀ (i : Instr) (s t : State) (r : RegIdx), exec i s = .next t → mayWriteReg i r = false → t.x[r] = s.x[r]

/-- The table of R35: after the instruction the cell it stores to, at the address its meaning
computes, holds the byte stored, and every other cell reads as before; an instruction that stores
nothing leaves every cell. -/
def Obligations.MemoryFrame : Prop :=
  ∀ (i : Instr) (s t : State), exec i s = .next t →
    ∀ n : Nat, Memory.byteAt t.mem n =
      match storedCell i s with
      | some (p, v) => if n = p.toNat then v else Memory.byteAt s.mem n
      | none => Memory.byteAt s.mem n

/-- R123: of the ALU operations only CMP writes `fl`, and CMP writes nothing else (the engine's
advance apart); no other ALU operation writes or reads `fl`. -/
def Obligations.OnlyCmpOfTheAluTouchesFlags : Prop :=
  (∀ (oa ob : Operand) (s t : State), exec (.cmp oa ob) s = .next t →
    t.x = s.x ∧ t.mem = s.mem ∧ t.out = s.out) ∧
  (∀ (i : Instr) (s : State) (f : Byte), i.mnemonic.isAlu = true → i.mnemonic ≠ .cmp →
    exec i { s with fl := f } = mapNext (fun t => { t with fl := f }) (exec i s))

/-- R18: `fl` is written by CMP alone, and read by JEQ and JNE alone, bit 0 only. So a step that is
not CMP gives the same result whatever `fl` holds (with the same bit 0, for JEQ and JNE) and hands
`fl` on unchanged, and what CMP leaves on two registers does not depend on the old `fl`. With an
absent or illegal operand CMP faults and `fl` is kept: that is clause 4 of `ThreeByteRule` in CmpRule. -/
def Obligations.FlagsReachOnlyBranches : Prop :=
  (∀ (i : Instr) (s : State) (f : Byte), i.mnemonic ≠ .cmp →
    (i.mnemonic = .jeq ∨ i.mnemonic = .jne → f.getLsbD 0 = s.fl.getLsbD 0) →
    exec i { s with fl := f } = mapNext (fun t => { t with fl := f }) (exec i s)) ∧
  (∀ (a b : RegIdx) (s : State) (f : Byte),
    exec (.cmp (regByte a) (regByte b)) { s with fl := f } = exec (.cmp (regByte a) (regByte b)) s)

/-- R23: an instruction appends to the output what it emits, one event for PRN and PRA and none for
the rest, and changes nothing of what was there. -/
def Obligations.OutputFrame : Prop :=
  ∀ (i : Instr) (s t : State), exec i s = .next t → t.out = s.out ++ emitted i s

/-- R23 and R81, over runs of any length: output is only appended, never retracted. -/
def Obligations.OutputOnlyGrows : Prop :=
  ∀ (n : Nat) (s t : State), Host.Core.run Sys2Proof.core n s = .next t → s.out <+: t.out

/-! ### Data movement and output -/

/-- R90, with the document's property that LDI then PRN of the register emits the immediate; the
faults are those of `ImmediateRule` (logs 8, 9). -/
def Obligations.LdiRule : Prop :=
  ImmediateRule .ldi 0x82#8 (fun a v s => { s with x := s.x.set a v }) ∧
  ∀ (a : RegIdx) (v : Byte) (s : State), s.pc.toNat ≤ 250 → ∃ t u : State,
    exec (.ldi (regByte a) (some v)) s = .next t ∧ exec (.prn (regByte a)) t = .next u ∧
    u.out = s.out ++ [.num v]

/-- R91: `mem[x[a]] <- x[b]`, for every value of `x[a]`; with the decisions of `ThreeByteRule`
(logs 1, 8, 9). -/
def Obligations.StRule : Prop :=
  ThreeByteRule .st 0x84#8 (fun _ _ _ => True)
    (fun a b s => { s with mem := Memory.setByte s.mem s.x[a].toNat s.x[b] })

/-- R92 and R93: one event, a number for PRN and a character for PRA. That the output is a list of
typed events is the spec's decision D17 (log 13); with the decisions of `TwoByteRule` (logs 1, 8, 9). -/
def Obligations.PrintRules : Prop :=
  TwoByteRule .prn 0x47#8 (fun _ _ => True) (fun a s => { s with out := s.out ++ [.num s.x[a]] }) ∧
  TwoByteRule .pra 0x48#8 (fun _ _ => True) (fun a s => { s with out := s.out ++ [.chr s.x[a]] })

/-! ### Stack -/

/-- R100: decrement, then write `x[a]` as it is after the decrement (so PUSH R7 pushes the
decremented pointer: spec decision D24, log 12); at `sp = 0` a fault with nothing written (spec
decision D7, log 11); with the decisions of `TwoByteRule` (logs 1, 8, 9). -/
def Obligations.PushRule : Prop :=
  TwoByteRule .push 0x45#8 (fun _ s => s.x[7] ≠ 0#8)
    (fun a s => { s with
      x := s.x.set 7 (toByte (s.x[7].toNat - 1)),
      mem := Memory.setByte s.mem (s.x[7].toNat - 1)
        (if a = 7 then toByte (s.x[7].toNat - 1) else s.x[a]) }) ∧
  ∀ (a : RegIdx) (s : State), s.x[7] = 0#8 →
    exec (.push (regByte a)) s = .next (afterFault .outOfRangeAddress s)

/-- R101: `x[a]` takes the byte at `sp`, then the pointer goes one up (so POP R7 ends with the popped
value plus 1: spec decision D24, log 12); where the pointer to be incremented is 255, a fault with
nothing written (spec decision D7, log 11); with the decisions of `TwoByteRule` (logs 1, 8, 9). -/
def Obligations.PopRule : Prop :=
  TwoByteRule .pop 0x46#8
    (fun a s => (if a = 7 then Memory.byteAt s.mem s.x[7].toNat else s.x[7]) ≠ 255#8)
    (fun a s => { s with
      x := (s.x.set a (Memory.byteAt s.mem s.x[7].toNat)).set 7
        (toByte ((if a = 7 then Memory.byteAt s.mem s.x[7].toNat else s.x[7]).toNat + 1)) }) ∧
  ∀ (a : RegIdx) (s : State),
    (if a = 7 then Memory.byteAt s.mem s.x[7].toNat else s.x[7]) = 255#8 →
    exec (.pop (regByte a)) s = .next (afterFault .outOfRangeAddress s)

/-- R102: PUSH then POP of the same register, R7 included, restores every register and the stack
pointer, leaves the value pushed in the cell below, and advances `pc` by 4. -/
def Obligations.PushPopRoundTrip : Prop :=
  ∀ (a : RegIdx) (s : State), s.x[7] ≠ 0#8 → s.pc.toNat ≤ 251 → ∃ t u : State,
    exec (.push (regByte a)) s = .next t ∧ exec (.pop (regByte a)) t = .next u ∧
    u.x = s.x ∧ u.pc.toNat = s.pc.toNat + 4 ∧ u.fl = s.fl ∧ u.status = s.status ∧ u.out = s.out ∧
    ∀ n : Nat, Memory.byteAt u.mem n =
      if n = s.x[7].toNat - 1 then (if a = 7 then toByte (s.x[7].toNat - 1) else s.x[a])
      else Memory.byteAt s.mem n

/-! ### Control transfer -/

/-- R105: decrement, store `pc + 2`, jump to `x[a]` as it is after the decrement (CALL R7: spec
decision D24, log 12). Faults, with nothing written: a bad operand (spec decision D6, log 8), `sp = 0`
(spec decision D7, log 11), a return address above 255 (spec decision D8, log 11). The opcode byte is
D14 (log 1). -/
def Obligations.CallRule : Prop :=
  (∀ va : Byte, encode (.call (some va)) = some [0x50#8, va]) ∧
  (∀ (a : RegIdx) (s : State), s.x[7] ≠ 0#8 → s.pc.toNat ≤ 253 →
    exec (.call (regByte a)) s = .next { s with
      x := s.x.set 7 (toByte (s.x[7].toNat - 1)),
      mem := Memory.setByte s.mem (s.x[7].toNat - 1) (toByte (s.pc.toNat + 2)),
      pc := if a = 7 then toByte (s.x[7].toNat - 1) else s.x[a] }) ∧
  (∀ (oa : Operand) (s : State), Operand.isReg oa = false ∨ s.x[7] = 0#8 ∨ 254 ≤ s.pc.toNat →
    exec (.call oa) s = .next (afterFault .outOfRangeAddress s)) ∧
  (∀ s : State, s.status = .running → Memory.byteAt s.mem s.pc.toNat = 0x50#8 → 254 ≤ s.pc.toNat →
    step s = .next (afterFault .outOfRangeAddress s))

/-- R106: `pc` takes the byte at `sp` and the pointer goes one up; at `sp = 255` a fault with nothing
written (spec decision D7, log 11); at any `pc`, 254 and 255 included (spec decision D5, log 8). The
opcode byte is D14 (log 1). -/
def Obligations.RetRule : Prop :=
  encode .ret = some [0x11#8] ∧
  (∀ s : State, s.x[7] ≠ 255#8 →
    exec .ret s = .next { s with pc := Memory.byteAt s.mem s.x[7].toNat,
                                 x := s.x.set 7 (toByte (s.x[7].toNat + 1)) }) ∧
  (∀ s : State, s.x[7] = 255#8 → exec .ret s = .next (afterFault .outOfRangeAddress s)) ∧
  (∀ s : State, s.status = .running → Memory.byteAt s.mem s.pc.toNat = 0x11#8 → step s = exec .ret s)

/-- R107: `pc <- x[a]` for every value of `x[a]` and at every `pc`; a bad operand faults and `pc`
stays (spec decisions D5 and D6, log 8; the opcode byte is D14, log 1). -/
def Obligations.JmpRule : Prop :=
  (∀ va : Byte, encode (.jmp (some va)) = some [0x54#8, va]) ∧
  (∀ (a : RegIdx) (s : State), exec (.jmp (regByte a)) s = .next { s with pc := s.x[a] }) ∧
  (∀ (oa : Operand) (s : State), Operand.isReg oa = false →
    exec (.jmp oa) s = .next (afterFault .outOfRangeAddress s)) ∧
  (∀ s : State, s.status = .running → Memory.byteAt s.mem s.pc.toNat = 0x54#8 → s.pc.toNat = 255 →
    step s = .next (afterFault .outOfRangeAddress s))

/-- R108 and R109: JEQ branches when E is set, JNE when it is clear; not taken, each advances by 2
with its operand unexamined, whatever it is (spec decision D21, log 12), and faults where that would
pass 255 (spec decision D4, log 9); taken, a bad operand faults (spec decisions D5 and D6, log 8). The
opcode bytes are D14 (log 1). -/
def Obligations.ConditionalBranchRules : Prop :=
  (∀ va : Byte, encode (.jeq (some va)) = some [0x55#8, va] ∧ encode (.jne (some va)) = some [0x56#8, va]) ∧
  (∀ (a : RegIdx) (s : State), s.fl.getLsbD 0 = true →
    exec (.jeq (regByte a)) s = .next { s with pc := s.x[a] }) ∧
  (∀ (a : RegIdx) (s : State), s.fl.getLsbD 0 = false →
    exec (.jne (regByte a)) s = .next { s with pc := s.x[a] }) ∧
  (∀ (oa : Operand) (s : State), s.fl.getLsbD 0 = false → s.pc.toNat ≤ 253 →
    exec (.jeq oa) s = .next { s with pc := toByte (s.pc.toNat + 2) }) ∧
  (∀ (oa : Operand) (s : State), s.fl.getLsbD 0 = true → s.pc.toNat ≤ 253 →
    exec (.jne oa) s = .next { s with pc := toByte (s.pc.toNat + 2) }) ∧
  (∀ (oa : Operand) (s : State),
    (s.fl.getLsbD 0 = true ∧ Operand.isReg oa = false) ∨ (s.fl.getLsbD 0 = false ∧ 254 ≤ s.pc.toNat) →
    exec (.jeq oa) s = .next (afterFault .outOfRangeAddress s)) ∧
  (∀ (oa : Operand) (s : State),
    (s.fl.getLsbD 0 = false ∧ Operand.isReg oa = false) ∨ (s.fl.getLsbD 0 = true ∧ 254 ≤ s.pc.toNat) →
    exec (.jne oa) s = .next (afterFault .outOfRangeAddress s))

/-- R110: a RET run in a state that has the stack pointer and the cell under it as the CALL left
them goes to the instruction after the CALL, with the pointer as before the CALL. -/
def Obligations.CallThenRetReturns : Prop :=
  ∀ (a : RegIdx) (s : State), s.x[7] ≠ 0#8 → s.pc.toNat ≤ 253 → ∃ t : State,
    exec (.call (regByte a)) s = .next t ∧
    ∀ r : State, r.x[7] = t.x[7] → Memory.byteAt r.mem t.x[7].toNat = Memory.byteAt t.mem t.x[7].toNat →
      ∃ u : State, exec .ret r = .next u ∧ u.pc.toNat = s.pc.toNat + 2 ∧ u.x[7] = s.x[7]

/-! ### System -/

/-- R115: HLT makes the machine Halted and changes nothing else, at every address, 254 and 255
included; `pc` stays (spec decision D11, log 9). -/
def Obligations.HltRule : Prop :=
  encode .hlt = some [0x01#8] ∧
  (∀ s : State, exec .hlt s = .next { s with status := .halted }) ∧
  (∀ s : State, s.status = .running → Memory.byteAt s.mem s.pc.toNat = 0x01#8 →
    step s = .next { s with status := .halted })

/-! ### The ALU -/

/-- R125, R127 and R128: the result modulo 256 (spec decision D1, log 14), no flag and no overflow
fault; with the decisions of `ThreeByteRule` (logs 1, 8, 9). -/
def Obligations.AddSubMulRules : Prop :=
  ThreeByteRule .add 0xA0#8 (fun _ _ _ => True)
    (fun a b s => { s with x := s.x.set a (toByte ((s.x[a].toNat + s.x[b].toNat) % 256)) }) ∧
  ThreeByteRule .sub 0xA1#8 (fun _ _ _ => True)
    (fun a b s => { s with x := s.x.set a (toByte
      (if s.x[b].toNat ≤ s.x[a].toNat then s.x[a].toNat - s.x[b].toNat
       else s.x[a].toNat + 256 - s.x[b].toNat)) }) ∧
  ThreeByteRule .mul 0xA2#8 (fun _ _ _ => True)
    (fun a b s => { s with x := s.x.set a (toByte ((s.x[a].toNat * s.x[b].toNat) % 256)) })

/-- R126: the sum modulo 256 (spec decision D1, log 14); the immediate is never range-checked. ADDI's
opcode byte is the spec's decision D15 (log 2); the faults are those of `ImmediateRule` (logs 8, 9). -/
def Obligations.AddImmediateRule : Prop :=
  ImmediateRule .addi 0xA5#8
    (fun a v s => { s with x := s.x.set a (toByte ((s.x[a].toNat + v.toNat) % 256)) })

/-- R129 and R130: the unsigned quotient rounded down (spec decision D2, log 14) and the remainder
that goes with it; a zero divisor faults with nothing written, at every `pc`, after the operand
checks (spec decision D13, log 10); with the decisions of `ThreeByteRule` (logs 1, 8, 9). -/
def Obligations.DivModRules : Prop :=
  ThreeByteRule .div 0xA3#8 (fun _ b s => s.x[b] ≠ 0#8)
    (fun a b s => { s with x := s.x.set a (toByte (s.x[a].toNat / s.x[b].toNat)) }) ∧
  ThreeByteRule .mod 0xA4#8 (fun _ b s => s.x[b] ≠ 0#8)
    (fun a b s => { s with
      x := s.x.set a (toByte (s.x[a].toNat - s.x[b].toNat * (s.x[a].toNat / s.x[b].toNat))) }) ∧
  ∀ (a b : RegIdx) (s : State), s.x[b] = 0#8 →
    exec (.div (regByte a) (regByte b)) s = .next (afterFault .divideByZero s) ∧
    exec (.mod (regByte a) (regByte b)) s = .next (afterFault .divideByZero s)

/-- R130 and R132: what DIV and MOD leave fits together, `x[b] * DIV + MOD = x[a]` and `MOD < x[b]`,
for every non-zero divisor. -/
def Obligations.QuotientAndRemainderFit : Prop :=
  ∀ (a b : RegIdx) (s : State), s.x[b] ≠ 0#8 → ∃ t u : State,
    exec (.div (regByte a) (regByte b)) s = .next t ∧ exec (.mod (regByte a) (regByte b)) s = .next u ∧
    s.x[b].toNat * t.x[a].toNat + u.x[a].toNat = s.x[a].toNat ∧ u.x[a].toNat < s.x[b].toNat

/-- R133: the unsigned comparison gives `fl` one of its three values and nothing else is written;
with the decisions of `ThreeByteRule` (logs 1, 8, 9). -/
def Obligations.CmpRule : Prop :=
  ThreeByteRule .cmp 0xA7#8 (fun _ _ _ => True)
    (fun a b s => { s with fl :=
      if s.x[a] = s.x[b] then 0b00000001#8
      else if s.x[b].toNat < s.x[a].toNat then 0b00000010#8 else 0b00000100#8 })

/-- R17: after a CMP exactly one of E (bit 0), G (bit 1), L (bit 2) is set, the one that the unsigned
comparison of the two registers says, and all other bits are cleared; no other instruction modifies
the flags. -/
def Obligations.ComparisonSetsExactlyOneFlag : Prop :=
  (∀ (a b : RegIdx) (s t : State), exec (.cmp (regByte a) (regByte b)) s = .next t →
    (t.fl.getLsbD 0 = true ↔ s.x[a].toNat = s.x[b].toNat) ∧
    (t.fl.getLsbD 1 = true ↔ s.x[b].toNat < s.x[a].toNat) ∧
    (t.fl.getLsbD 2 = true ↔ s.x[a].toNat < s.x[b].toNat) ∧
    (∀ j : Nat, 3 ≤ j → t.fl.getLsbD j = false) ∧
    (t.fl = 1#8 ∨ t.fl = 2#8 ∨ t.fl = 4#8)) ∧
  (∀ (i : Instr) (s t : State), i.mnemonic ≠ .cmp → exec i s = .next t → t.fl = s.fl)

/-- R131, R134 and R135: each bit of the result is the operation on the same bits of the two
registers; with the decisions of `ThreeByteRule` (logs 1, 8, 9). -/
def Obligations.BitwiseRules : Prop :=
  ThreeByteRule .and 0xA8#8 (fun _ _ _ => True)
    (fun a b s => { s with x := s.x.set a (s.x[a] &&& s.x[b]) }) ∧
  ThreeByteRule .or 0xAA#8 (fun _ _ _ => True)
    (fun a b s => { s with x := s.x.set a (s.x[a] ||| s.x[b]) }) ∧
  ThreeByteRule .xor 0xAB#8 (fun _ _ _ => True)
    (fun a b s => { s with x := s.x.set a (s.x[a] ^^^ s.x[b]) }) ∧
  ∀ (a b : RegIdx) (s t u v : State), exec (.and (regByte a) (regByte b)) s = .next t →
    exec (.or (regByte a) (regByte b)) s = .next u → exec (.xor (regByte a) (regByte b)) s = .next v →
    ∀ j : Nat, j < 8 →
      (t.x[a].getLsbD j = true ↔ s.x[a].getLsbD j = true ∧ s.x[b].getLsbD j = true) ∧
      (u.x[a].getLsbD j = true ↔ s.x[a].getLsbD j = true ∨ s.x[b].getLsbD j = true) ∧
      (v.x[a].getLsbD j = true ↔ s.x[a].getLsbD j ≠ s.x[b].getLsbD j)

/-- R136: one operand; every bit inverted, that is `255 - x[a]` (spec decision D19, log 14);
with the decisions of `TwoByteRule` (logs 1, 8, 9). -/
def Obligations.NotRule : Prop :=
  TwoByteRule .not 0x69#8 (fun _ _ => True)
    (fun a s => { s with x := s.x.set a (toByte (255 - s.x[a].toNat)) }) ∧
  ∀ (a : RegIdx) (s t : State), exec (.not (regByte a)) s = .next t →
    ∀ j : Nat, j < 8 → t.x[a].getLsbD j = !s.x[a].getLsbD j

/-- R137 and R138 (spec decision D18, log 14): the amount is the whole of `x[b]`, so 8 or more gives
0; SHR is logical; with the decisions of `ThreeByteRule` (logs 1, 8, 9). -/
def Obligations.ShiftRules : Prop :=
  ThreeByteRule .shl 0xAC#8 (fun _ _ _ => True)
    (fun a b s => { s with x := s.x.set a (toByte ((s.x[a].toNat * 2 ^ s.x[b].toNat) % 256)) }) ∧
  ThreeByteRule .shr 0xAD#8 (fun _ _ _ => True)
    (fun a b s => { s with x := s.x.set a (toByte (s.x[a].toNat / 2 ^ s.x[b].toNat)) }) ∧
  ∀ (a b : RegIdx) (s t u : State), exec (.shl (regByte a) (regByte b)) s = .next t →
    exec (.shr (regByte a) (regByte b)) s = .next u → 8 ≤ s.x[b].toNat → t.x[a] = 0#8 ∧ u.x[a] = 0#8
end

