-- ==== Sys2Proof/Laws/Operands.lean ====
section
/-! SUPPORT. Everything an operand form can do: it gives the register or the byte, or it raises
OutOfRangeAddress. -/

namespace Sys2Proof.Machine

@[simp] theorem opnd_some (v : Byte) : opnd (some v) = .ok v := rfl
@[simp] theorem opnd_none : opnd none = .error .outOfRangeAddress := rfl
@[simp] theorem immOperand_some (v : Byte) : immOperand (some v) = .ok v := rfl
@[simp] theorem immOperand_none : immOperand none = .error .outOfRangeAddress := rfl

@[simp] theorem isReg_none : Operand.isReg none = false := rfl
@[simp] theorem isReg_some (v : Byte) : Operand.isReg (some v) = decide (v.toNat ≤ 7) := rfl
@[simp] theorem isReg_regByte : ∀ a : RegIdx, Operand.isReg (regByte a) = true := by decide

@[simp] theorem ridx_toByte : ∀ a : RegIdx, ridx (toByte a.val) = .ok a := by
  intro a
  have h : (toByte a.val).toNat = a.val := by simp; omega
  unfold ridx
  rw [dif_pos (by omega)]
  congr 1
  exact Fin.ext h

@[simp] theorem regOperand_regByte (a : RegIdx) : regOperand (regByte a) = .ok a := ridx_toByte a

theorem regOperand_of_not_isReg (o : Operand) (h : Operand.isReg o = false) :
    regOperand o = .error .outOfRangeAddress := by
  cases o with
  | none => rfl
  | some v =>
    simp only [isReg_some, decide_eq_false_iff_not] at h
    show ridx v = _
    simp [ridx, h]

/-- A register operand names a register, and then it is that register's byte, or it raises
OutOfRangeAddress. -/
theorem regOperand_cases (o : Operand) :
    (∃ a, o = regByte a ∧ regOperand o = .ok a) ∨
      (Operand.isReg o = false ∧ regOperand o = .error .outOfRangeAddress) := by
  by_cases h : Operand.isReg o = true
  · left
    cases o with
    | none => simp at h
    | some v =>
      simp only [isReg_some, decide_eq_true_eq] at h
      refine ⟨⟨v.toNat, by omega⟩, ?_, ?_⟩
      · simp [regByte]
      · show ridx v = _
        simp [ridx, h]
  · have h := Bool.eq_false_iff.mpr h
    exact .inr ⟨h, regOperand_of_not_isReg o h⟩

/-- An immediate operand is its byte, or it is absent and raises OutOfRangeAddress. -/
theorem immOperand_cases (o : Operand) :
    (∃ v, o = some v ∧ immOperand o = .ok v) ∨ (o = none ∧ immOperand o = .error .outOfRangeAddress) := by
  cases o with
  | none => exact .inr ⟨rfl, rfl⟩
  | some v => exact .inl ⟨v, rfl, rfl⟩

@[simp] theorem regPair_regByte (a b : RegIdx) : regPair (regByte a) (regByte b) = .ok (a, b) := by
  simp [regPair, bind, Except.bind, pure, Except.pure]

theorem regPair_of_not_isReg (oa ob : Operand) (h : Operand.isReg oa = false ∨ Operand.isReg ob = false) :
    regPair oa ob = .error .outOfRangeAddress := by
  rcases h with h | h
  · simp [regPair, regOperand_of_not_isReg _ h, bind, Except.bind]
  · rcases regOperand_cases oa with ⟨a, -, ha⟩ | ⟨-, ha⟩ <;>
      simp [regPair, ha, regOperand_of_not_isReg _ h, bind, Except.bind]

/-- Two register operands name two registers, or they raise OutOfRangeAddress. -/
theorem regPair_cases (oa ob : Operand) :
    (∃ a b, oa = regByte a ∧ ob = regByte b ∧ regPair oa ob = .ok (a, b)) ∨
      ((Operand.isReg oa = false ∨ Operand.isReg ob = false) ∧
        regPair oa ob = .error .outOfRangeAddress) := by
  rcases regOperand_cases oa with ⟨a, rfl, -⟩ | ⟨h, -⟩
  · rcases regOperand_cases ob with ⟨b, rfl, -⟩ | ⟨h, -⟩
    · exact .inl ⟨a, b, rfl, rfl, regPair_regByte a b⟩
    · exact .inr ⟨.inr h, regPair_of_not_isReg _ _ (.inr h)⟩
  · exact .inr ⟨.inl h, regPair_of_not_isReg _ _ (.inl h)⟩

end Sys2Proof.Machine
end

