-- ==== Sys2Proof/Laws/State.lean ====
section
/-! SUPPORT. One lemma per field per update of State, so that no proof unfolds a record update. -/

namespace Sys2Proof.Machine

@[simp] theorem writeByte_mem (s : State) (a v : Byte) : (s.writeByte a v).mem = Memory.setByte s.mem a.toNat v := rfl
@[simp] theorem writeByte_x (s : State) (a v : Byte) : (s.writeByte a v).x = s.x := rfl
@[simp] theorem writeByte_pc (s : State) (a v : Byte) : (s.writeByte a v).pc = s.pc := rfl
@[simp] theorem writeByte_fl (s : State) (a v : Byte) : (s.writeByte a v).fl = s.fl := rfl
@[simp] theorem writeByte_status (s : State) (a v : Byte) : (s.writeByte a v).status = s.status := rfl
@[simp] theorem writeByte_out (s : State) (a v : Byte) : (s.writeByte a v).out = s.out := rfl

@[simp] theorem setReg_mem (s : State) (i : RegIdx) (v : Byte) : (s.setReg i v).mem = s.mem := rfl
@[simp] theorem setReg_x (s : State) (i : RegIdx) (v : Byte) : (s.setReg i v).x = s.x.set i v := rfl
@[simp] theorem setReg_pc (s : State) (i : RegIdx) (v : Byte) : (s.setReg i v).pc = s.pc := rfl
@[simp] theorem setReg_fl (s : State) (i : RegIdx) (v : Byte) : (s.setReg i v).fl = s.fl := rfl
@[simp] theorem setReg_status (s : State) (i : RegIdx) (v : Byte) : (s.setReg i v).status = s.status := rfl
@[simp] theorem setReg_out (s : State) (i : RegIdx) (v : Byte) : (s.setReg i v).out = s.out := rfl

@[simp] theorem setSp_mem (s : State) (v : Byte) : (s.setSp v).mem = s.mem := rfl
@[simp] theorem setSp_x (s : State) (v : Byte) : (s.setSp v).x = s.x.set spIdx v := rfl
@[simp] theorem setSp_pc (s : State) (v : Byte) : (s.setSp v).pc = s.pc := rfl
@[simp] theorem setSp_fl (s : State) (v : Byte) : (s.setSp v).fl = s.fl := rfl
@[simp] theorem setSp_status (s : State) (v : Byte) : (s.setSp v).status = s.status := rfl
@[simp] theorem setSp_out (s : State) (v : Byte) : (s.setSp v).out = s.out := rfl

@[simp] theorem setPc_mem (s : State) (t : Byte) : (s.setPc t).mem = s.mem := rfl
@[simp] theorem setPc_x (s : State) (t : Byte) : (s.setPc t).x = s.x := rfl
@[simp] theorem setPc_pc (s : State) (t : Byte) : (s.setPc t).pc = t := rfl
@[simp] theorem setPc_fl (s : State) (t : Byte) : (s.setPc t).fl = s.fl := rfl
@[simp] theorem setPc_status (s : State) (t : Byte) : (s.setPc t).status = s.status := rfl
@[simp] theorem setPc_out (s : State) (t : Byte) : (s.setPc t).out = s.out := rfl

@[simp] theorem setFl_mem (s : State) (v : Byte) : (s.setFl v).mem = s.mem := rfl
@[simp] theorem setFl_x (s : State) (v : Byte) : (s.setFl v).x = s.x := rfl
@[simp] theorem setFl_pc (s : State) (v : Byte) : (s.setFl v).pc = s.pc := rfl
@[simp] theorem setFl_fl (s : State) (v : Byte) : (s.setFl v).fl = v := rfl
@[simp] theorem setFl_status (s : State) (v : Byte) : (s.setFl v).status = s.status := rfl
@[simp] theorem setFl_out (s : State) (v : Byte) : (s.setFl v).out = s.out := rfl

@[simp] theorem emit_mem (s : State) (e : OutEvent) : (s.emit e).mem = s.mem := rfl
@[simp] theorem emit_x (s : State) (e : OutEvent) : (s.emit e).x = s.x := rfl
@[simp] theorem emit_pc (s : State) (e : OutEvent) : (s.emit e).pc = s.pc := rfl
@[simp] theorem emit_fl (s : State) (e : OutEvent) : (s.emit e).fl = s.fl := rfl
@[simp] theorem emit_status (s : State) (e : OutEvent) : (s.emit e).status = s.status := rfl
@[simp] theorem emit_out (s : State) (e : OutEvent) : (s.emit e).out = s.out ++ [e] := rfl

@[simp] theorem halt_mem (s : State) : s.halt.mem = s.mem := rfl
@[simp] theorem halt_x (s : State) : s.halt.x = s.x := rfl
@[simp] theorem halt_pc (s : State) : s.halt.pc = s.pc := rfl
@[simp] theorem halt_fl (s : State) : s.halt.fl = s.fl := rfl
@[simp] theorem halt_status (s : State) : s.halt.status = .halted := rfl
@[simp] theorem halt_out (s : State) : s.halt.out = s.out := rfl

@[simp] theorem raiseFault_mem (k : FaultKind) (s : State) : (raiseFault k s).mem = s.mem := rfl
@[simp] theorem raiseFault_x (k : FaultKind) (s : State) : (raiseFault k s).x = s.x := rfl
@[simp] theorem raiseFault_pc (k : FaultKind) (s : State) : (raiseFault k s).pc = s.pc := rfl
@[simp] theorem raiseFault_fl (k : FaultKind) (s : State) : (raiseFault k s).fl = s.fl := rfl
@[simp] theorem raiseFault_status (k : FaultKind) (s : State) : (raiseFault k s).status = .faulted k := rfl
@[simp] theorem raiseFault_out (k : FaultKind) (s : State) : (raiseFault k s).out = s.out := rfl

/-! Reading a register after writing one. -/

theorem reg_eq (s : State) (i : RegIdx) : s.reg i = s.x[i] := rfl

theorem sp_eq (s : State) : s.sp = s.x[7] := rfl

theorem reg_setReg (s : State) (i j : RegIdx) (v : Byte) :
    (s.setReg i v).reg j = if i = j then v else s.reg j := by
  simp [State.reg, Vector.getElem_set, Fin.ext_iff]

@[simp] theorem reg_setReg_same (s : State) (i : RegIdx) (v : Byte) : (s.setReg i v).reg i = v := by
  simp [reg_setReg]

theorem reg_setReg_ne (s : State) (i j : RegIdx) (v : Byte) (h : i ≠ j) : (s.setReg i v).reg j = s.reg j := by
  simp [reg_setReg, h]

@[simp] theorem sp_setSp (s : State) (v : Byte) : (s.setSp v).sp = v := reg_setReg_same s spIdx v

theorem reg_setSp (s : State) (j : RegIdx) (v : Byte) :
    (s.setSp v).reg j = if spIdx = j then v else s.reg j := reg_setReg s spIdx j v

@[simp] theorem reg_writeByte (s : State) (a v : Byte) (i : RegIdx) : (s.writeByte a v).reg i = s.reg i := rfl
@[simp] theorem sp_writeByte (s : State) (a v : Byte) : (s.writeByte a v).sp = s.sp := rfl

end Sys2Proof.Machine
end

