-- ==== Sys2Proof/Laws/Ops.lean ====
section
/-! SUPPORT. Everything each shared operation of Sys2Proof/Machine/Ops.lean can do. -/

namespace Sys2Proof.Machine

theorem addrPlus_of_le (a : Byte) (n : Nat) (h : a.toNat + n ≤ 255) : addrPlus a n = .ok (toByte (a.toNat + n)) := by
  simp [addrPlus, h]

theorem addrPlus_of_gt (a : Byte) (n : Nat) (h : 255 < a.toNat + n) :
    addrPlus a n = .error .outOfRangeAddress := by
  simp [addrPlus, Nat.not_le.mpr h]

theorem addrPred_zero (a : Byte) (h : a.toNat = 0) : addrPred a = .error .outOfRangeAddress := by
  simp [addrPred, h]

theorem addrPred_pos (a : Byte) (h : a.toNat ≠ 0) : addrPred a = .ok (toByte (a.toNat - 1)) := by
  simp [addrPred, h]

@[simp] theorem settle_ok (s t : State) : settle s (.ok t) = .next t := rfl
@[simp] theorem settle_error (s : State) (k : FaultKind) : settle s (.error k) = .next (raiseFault k s) := rfl

/-- A handler always ends in a next state: the state it returned, or the state before it, Faulted. -/
theorem settle_next_iff (s t : State) (r : Except FaultKind State) :
    settle s r = .next t ↔ r = .ok t ∨ ∃ k, r = .error k ∧ t = raiseFault k s := by
  cases r <;> simp [eq_comm]

theorem settle_total (s : State) (r : Except FaultKind State) : ∃ t, settle s r = .next t := by
  cases r <;> simp

theorem advance_of_le (n : Nat) (s : State) (h : s.pc.toNat + n ≤ 255) :
    advance n s = s.setPc (toByte (s.pc.toNat + n)) := by
  simp [advance, addrPlus_of_le _ _ h]

theorem advance_of_gt (n : Nat) (s : State) (h : 255 < s.pc.toNat + n) :
    advance n s = raiseFault .outOfRangeAddress s := by
  simp [advance, addrPlus_of_gt _ _ h]

/-- The advance moves `pc` by `n`, or it leaves `pc` and the machine is Faulted. -/
theorem advance_cases (n : Nat) (s : State) :
    (s.pc.toNat + n ≤ 255 ∧ advance n s = s.setPc (toByte (s.pc.toNat + n))) ∨
      (255 < s.pc.toNat + n ∧ advance n s = raiseFault .outOfRangeAddress s) := by
  rcases Nat.lt_or_ge 255 (s.pc.toNat + n) with h | h
  · exact .inr ⟨h, advance_of_gt n s h⟩
  · exact .inl ⟨h, advance_of_le n s h⟩

@[simp] theorem advance_mem (n : Nat) (s : State) : (advance n s).mem = s.mem := by
  rcases advance_cases n s with ⟨-, h⟩ | ⟨-, h⟩ <;> simp [h]

@[simp] theorem advance_x (n : Nat) (s : State) : (advance n s).x = s.x := by
  rcases advance_cases n s with ⟨-, h⟩ | ⟨-, h⟩ <;> simp [h]

@[simp] theorem advance_fl (n : Nat) (s : State) : (advance n s).fl = s.fl := by
  rcases advance_cases n s with ⟨-, h⟩ | ⟨-, h⟩ <;> simp [h]

@[simp] theorem advance_out (n : Nat) (s : State) : (advance n s).out = s.out := by
  rcases advance_cases n s with ⟨-, h⟩ | ⟨-, h⟩ <;> simp [h]

theorem decrementSp_zero (s : State) (h : s.sp.toNat = 0) : decrementSp s = .error .outOfRangeAddress := by
  simp [decrementSp, addrPred_zero _ h, bind, Except.bind]

theorem decrementSp_pos (s : State) (h : s.sp.toNat ≠ 0) :
    decrementSp s = .ok (s.setSp (toByte (s.sp.toNat - 1))) := by
  simp [decrementSp, addrPred_pos _ h, bind, Except.bind, pure, Except.pure]

/-- The stack pointer goes one lower, or it is 0 and OutOfRangeAddress is raised. -/
theorem decrementSp_cases (s : State) :
    (s.sp.toNat ≠ 0 ∧ decrementSp s = .ok (s.setSp (toByte (s.sp.toNat - 1)))) ∨
      (s.sp.toNat = 0 ∧ decrementSp s = .error .outOfRangeAddress) := by
  by_cases h : s.sp.toNat = 0
  · exact .inr ⟨h, decrementSp_zero s h⟩
  · exact .inl ⟨h, decrementSp_pos s h⟩

@[simp] theorem fetch_ir (s : State) : (fetch s).ir = s.readByte s.pc := rfl
@[simp] theorem fetch_opa (s : State) : (fetch s).opa = fetchOperand s 1 := rfl
@[simp] theorem fetch_opb (s : State) : (fetch s).opb = fetchOperand s 2 := rfl

theorem fetchOperand_of_le (s : State) (k : Nat) (h : s.pc.toNat + k ≤ 255) :
    fetchOperand s k = some (Memory.byteAt s.mem (s.pc.toNat + k)) := by
  simp [fetchOperand, h]

theorem fetchOperand_of_gt (s : State) (k : Nat) (h : 255 < s.pc.toNat + k) : fetchOperand s k = none := by
  simp [fetchOperand, Nat.not_le.mpr h]

end Sys2Proof.Machine
end

