-- ==== Sys2Proof/Laws/Meanings.lean ====
section
/-! SUPPORT. Everything each shared handler can do, one lemma each; the proofs about instructions
cite these instead of unfolding the handlers. -/

namespace Sys2Proof.Machine

theorem printReg_cases (event : Byte → OutEvent) (oa : Operand) (s : State) :
    (∃ a, oa = regByte a ∧ printReg event oa s = .ok (advance 2 (s.emit (event (s.reg a))))) ∨
      (Operand.isReg oa = false ∧ printReg event oa s = .error .outOfRangeAddress) := by
  rcases regOperand_cases oa with ⟨a, rfl, h⟩ | ⟨hr, h⟩
  · exact .inl ⟨a, rfl, by simp [printReg, bind, Except.bind, pure, Except.pure]⟩
  · exact .inr ⟨hr, by simp [printReg, h, bind, Except.bind]⟩

theorem jumpReg_cases (oa : Operand) (s : State) :
    (∃ a, oa = regByte a ∧ jumpReg oa s = .ok (s.setPc (s.reg a))) ∨
      (Operand.isReg oa = false ∧ jumpReg oa s = .error .outOfRangeAddress) := by
  rcases regOperand_cases oa with ⟨a, rfl, h⟩ | ⟨hr, h⟩
  · exact .inl ⟨a, rfl, by simp [jumpReg, bind, Except.bind, pure, Except.pure]⟩
  · exact .inr ⟨hr, by simp [jumpReg, h, bind, Except.bind]⟩

@[simp] theorem branchReg_taken (oa : Operand) (s : State) : branchReg true oa s = jumpReg oa s := rfl
@[simp] theorem branchReg_not_taken (oa : Operand) (s : State) : branchReg false oa s = .ok (advance 2 s) := rfl

theorem aluRegReg_cases (f : Byte → Byte → Except FaultKind Byte) (oa ob : Operand) (s : State) :
    (∃ a b, oa = regByte a ∧ ob = regByte b ∧
        aluRegReg f oa ob s =
          match f (s.reg a) (s.reg b) with
          | .ok r => .ok (advance 3 (s.setReg a r))
          | .error k => .error k) ∨
      ((Operand.isReg oa = false ∨ Operand.isReg ob = false) ∧
        aluRegReg f oa ob s = .error .outOfRangeAddress) := by
  rcases regPair_cases oa ob with ⟨a, b, rfl, rfl, h⟩ | ⟨hr, h⟩
  · refine .inl ⟨a, b, rfl, rfl, ?_⟩
    cases hf : f (s.reg a) (s.reg b) <;>
      simp [aluRegReg, hf, bind, Except.bind, pure, Except.pure]
  · exact .inr ⟨hr, by simp [aluRegReg, h, bind, Except.bind]⟩

theorem aluRegImm_cases (f : Byte → Byte → Byte) (oa oimm : Operand) (s : State) :
    (∃ a v, oa = regByte a ∧ oimm = some v ∧
        aluRegImm f oa oimm s = .ok (advance 3 (s.setReg a (f (s.reg a) v)))) ∨
      ((Operand.isReg oa = false ∨ oimm = none) ∧
        aluRegImm f oa oimm s = .error .outOfRangeAddress) := by
  rcases regOperand_cases oa with ⟨a, rfl, h⟩ | ⟨hr, h⟩
  · rcases immOperand_cases oimm with ⟨v, rfl, -⟩ | ⟨rfl, -⟩
    · exact .inl ⟨a, v, rfl, rfl, by simp [aluRegImm, bind, Except.bind, pure, Except.pure]⟩
    · exact .inr ⟨.inr rfl, by simp [aluRegImm, bind, Except.bind]⟩
  · exact .inr ⟨.inl hr, by simp [aluRegImm, h, bind, Except.bind]⟩

theorem aluReg_cases (f : Byte → Byte) (oa : Operand) (s : State) :
    (∃ a, oa = regByte a ∧ aluReg f oa s = .ok (advance 2 (s.setReg a (f (s.reg a))))) ∨
      (Operand.isReg oa = false ∧ aluReg f oa s = .error .outOfRangeAddress) := by
  rcases regOperand_cases oa with ⟨a, rfl, h⟩ | ⟨hr, h⟩
  · exact .inl ⟨a, rfl, by simp [aluReg, bind, Except.bind, pure, Except.pure]⟩
  · exact .inr ⟨hr, by simp [aluReg, h, bind, Except.bind]⟩

end Sys2Proof.Machine
end

