-- ==== Sys2Proof/Laws/Memory.lean ====
section
/-! SUPPORT. The laws of the memory: what a byte reads as after a write or a load, and that every
operation keeps the canonical form. -/

namespace Sys2Proof.Machine

theorem byteAt_dropCell (m : Memory) (a n : Nat) :
    Memory.byteAt (Memory.dropCell m a) n = if n = a then Memory.unlisted else Memory.byteAt m n := by
  induction m with
  | nil => simp [Memory.dropCell, Memory.byteAt]
  | cons e r ih =>
    obtain ⟨k, w⟩ := e
    by_cases hk : k = a
    · subst hk
      by_cases hn : n = k
      · simpa [Memory.dropCell, hn] using ih
      · simp [Memory.dropCell, ih, hn, Memory.byteAt, Ne.symm hn]
    · by_cases hn : k = n
      · subst hn
        simp [Memory.dropCell, hk, Memory.byteAt]
      · simp [Memory.dropCell, hk, Memory.byteAt, hn, ih]

theorem byteAt_addCell (m : Memory) (a n : Nat) (v : Byte) 
    (hd : ∀ e ∈ m, e.1 ≠ a) :
    Memory.byteAt (Memory.addCell m a v) n = if n = a then v else Memory.byteAt m n := by
  induction m with
  | nil => simp [Memory.addCell, Memory.byteAt, eq_comm]
  | cons e r ih =>
    obtain ⟨k, w⟩ := e
    have hk : k ≠ a := hd (k, w) (by simp)
    have ih := ih (fun e he => hd e (by simp [he]))
    by_cases hlt : a < k
    · simp [Memory.addCell, hlt, Memory.byteAt, eq_comm]
    · by_cases hn : k = n
      · subst hn
        simp [Memory.addCell, hlt, Memory.byteAt, hk]
      · simp [Memory.addCell, hlt, Memory.byteAt, hn, ih]

theorem dropCell_not_mem (m : Memory) (a : Nat) : ∀ e ∈ Memory.dropCell m a, e.1 ≠ a := by
  induction m with
  | nil => simp [Memory.dropCell]
  | cons e r ih =>
    obtain ⟨k, w⟩ := e
    by_cases hk : k = a
    · simpa [Memory.dropCell, hk] using ih
    · intro e he
      simp only [Memory.dropCell, hk, if_false, List.mem_cons] at he
      rcases he with rfl | he
      · exact hk
      · exact ih e he

/-- What every byte reads as after a write: the law of memory, for every list, canonical or not. -/
theorem byteAt_setByte (m : Memory) (a n : Nat) (v : Byte) :
    Memory.byteAt (Memory.setByte m a v) n = if n = a then v else Memory.byteAt m n := by
  unfold Memory.setByte
  by_cases hv : v = Memory.unlisted
  · simp [hv, byteAt_dropCell]
  · rw [if_neg hv, byteAt_addCell _ _ _ _ (dropCell_not_mem m a),
      byteAt_dropCell]
    by_cases hn : n = a <;> simp [hn]

@[simp] theorem byteAt_setByte_same (m : Memory) (a : Nat) (v : Byte) :
    Memory.byteAt (Memory.setByte m a v) a = v := by
  simp [byteAt_setByte]

theorem byteAt_setByte_ne (m : Memory) (a n : Nat) (v : Byte) (h : n ≠ a) :
    Memory.byteAt (Memory.setByte m a v) n = Memory.byteAt m n := by
  simp [byteAt_setByte, h]

theorem wfFrom_mono {lo lo' : Nat} (m : Memory) (h : lo ≤ lo') (hw : Memory.wfFrom lo' m = true) :
    Memory.wfFrom lo m = true := by
  cases m with
  | nil => rfl
  | cons e r =>
    obtain ⟨k, w⟩ := e
    simp only [Memory.wfFrom, Bool.and_eq_true, decide_eq_true_eq] at hw ⊢
    exact ⟨⟨⟨by omega, hw.1.1.2⟩, hw.1.2⟩, hw.2⟩

theorem dropCell_wfFrom (m : Memory) (a lo : Nat) (hw : Memory.wfFrom lo m = true) :
    Memory.wfFrom lo (Memory.dropCell m a) = true := by
  induction m generalizing lo with
  | nil => rfl
  | cons e r ih =>
    obtain ⟨k, w⟩ := e
    simp only [Memory.wfFrom, Bool.and_eq_true, decide_eq_true_eq] at hw
    have hr := ih (k + 1) hw.2
    by_cases hk : k = a
    · simp only [Memory.dropCell, hk, if_true]
      exact wfFrom_mono _ (by omega) (hk ▸ hr)
    · simp only [Memory.dropCell, hk, if_false, Memory.wfFrom, Bool.and_eq_true, decide_eq_true_eq]
      exact ⟨hw.1, hr⟩

theorem addCell_wfFrom (m : Memory) (a lo : Nat) (v : Byte) (hd : ∀ e ∈ m, e.1 ≠ a) (hlo : lo ≤ a)
    (ha : a < 256) (hv : v ≠ Memory.unlisted) (hw : Memory.wfFrom lo m = true) :
    Memory.wfFrom lo (Memory.addCell m a v) = true := by
  induction m generalizing lo with
  | nil => simp [Memory.addCell, Memory.wfFrom, hlo, ha, hv]
  | cons e r ih =>
    obtain ⟨k, w⟩ := e
    have hk : k ≠ a := hd (k, w) (by simp)
    simp only [Memory.wfFrom, Bool.and_eq_true, decide_eq_true_eq] at hw
    by_cases hlt : a < k
    · simp only [Memory.addCell, hlt, if_true, Memory.wfFrom, Bool.and_eq_true, decide_eq_true_eq]
      exact ⟨⟨⟨hlo, ha⟩, hv⟩, ⟨⟨by omega, hw.1.1.2⟩, hw.1.2⟩, hw.2⟩
    · simp only [Memory.addCell, hlt, if_false, Memory.wfFrom, Bool.and_eq_true, decide_eq_true_eq]
      exact ⟨hw.1, ih (k + 1) (fun e he => hd e (by simp [he])) (by omega) hw.2⟩

/-- A write keeps the canonical form. -/
theorem setByte_wf (m : Memory) (a : Nat) (v : Byte) (ha : a < 256) (hw : Memory.wf m = true) :
    Memory.wf (Memory.setByte m a v) = true := by
  unfold Memory.setByte
  by_cases hv : v = Memory.unlisted
  · simp only [hv, if_true]
    exact dropCell_wfFrom m a 0 hw
  · rw [if_neg hv]
    exact addCell_wfFrom _ a 0 v (dropCell_not_mem m a) (Nat.zero_le a) ha hv (dropCell_wfFrom m a 0 hw)

/-- Writing at an address held in a byte keeps the canonical form. -/
theorem writeByte_wf (s : State) (a v : Byte) (hw : Memory.wf s.mem = true) :
    Memory.wf (s.writeByte a v).mem = true :=
  setByte_wf s.mem a.toNat v a.isLt hw

/-- A load keeps the canonical form, whatever its length. -/
theorem load_wf (bytes : List Byte) (a : Nat) (m : Memory) (hw : Memory.wf m = true) :
    Memory.wf (Memory.load a bytes m) = true := by
  induction bytes generalizing a m with
  | nil => exact hw
  | cons v r ih =>
    unfold Memory.load
    by_cases ha : a < 256
    · simpa [ha] using ih (a + 1) _ (setByte_wf m a v ha hw)
    · simpa [ha] using ih (a + 1) _ hw

/-- The reset memory is in canonical form. -/
theorem reset_mem_wf : Memory.wf State.reset.mem = true := rfl

/-- What a cell reads as after a load: a byte of the image where it covers the cell, else as before. -/
theorem byteAt_load (bytes : List Byte) (a n : Nat) (m : Memory) (hn : n < 256) :
    Memory.byteAt (Memory.load a bytes m) n =
      if a ≤ n ∧ n < a + bytes.length then bytes.getD (n - a) Memory.unlisted else Memory.byteAt m n := by
  induction bytes generalizing a m with
  | nil => exact (if_neg fun h => Nat.not_lt.mpr h.1 h.2).symm
  | cons v r ih =>
    unfold Memory.load
    rw [ih]
    by_cases h : a + 1 ≤ n ∧ n < a + 1 + r.length
    · have h' : a ≤ n ∧ n < a + (v :: r).length := by simp; omega
      rw [if_pos h, if_pos h', show n - a = (n - (a + 1)) + 1 by omega, List.getD_cons_succ]
    · rw [if_neg h]
      by_cases hna : n = a
      · subst hna
        simp [hn]
      · have h' : ¬(a ≤ n ∧ n < a + (v :: r).length) := by
          simp only [List.length_cons]; omega
        rw [if_neg h']
        by_cases ha : a < 256
        · simp [ha, byteAt_setByte_ne _ _ _ _ hna]
        · simp [ha]

end Sys2Proof.Machine
end

