-- ==== Sys2Proof/Laws/PerInstr.lean ====
section
/-! SUPPORT. Statements made for every instruction, one lemma per constructor. -/

/-- A complete instruction has as many operand bytes as its format says, and the mnemonic over those
bytes, whatever follows them, is the instruction again: no operand byte is dropped, doubled or swapped. -/
def Sys2Proof.Laws.OperandsRebuild.Statement (i : Sys2Proof.Instr) : Prop :=
  i.complete = true →
    (i.operands.filterMap id).length = i.mnemonic.format.nops ∧
      ∀ rest : List Sys2Proof.Byte,
        i.mnemonic.build (i.operands.filterMap id ++ rest)[0]? (i.operands.filterMap id ++ rest)[1]? = i

namespace Sys2Proof.Laws.OperandsRebuild

theorem one_operand (mk : Operand → Instr) (m : Mnemonic) (hc : ∀ o, (mk o).complete = Operand.present o)
    (ho : ∀ o, (mk o).operands = [o]) (hm : ∀ o, (mk o).mnemonic = m) (hf : m.format.nops = 1)
    (hb : ∀ a b, m.build a b = mk a) (o : Operand) : Statement (mk o) := by
  intro h
  cases o with
  | none => rw [hc] at h; exact absurd h (by decide)
  | some v => exact ⟨by simp [ho, hm, hf], fun rest => by simp [ho, hm, hb]⟩

theorem two_operands (mk : Operand → Operand → Instr) (m : Mnemonic)
    (hc : ∀ o p, (mk o p).complete = (Operand.present o && Operand.present p))
    (ho : ∀ o p, (mk o p).operands = [o, p]) (hm : ∀ o p, (mk o p).mnemonic = m)
    (hf : m.format.nops = 2) (hb : ∀ a b, m.build a b = mk a b) (o p : Operand) : Statement (mk o p) := by
  intro h
  rw [hc, Bool.and_eq_true] at h
  cases o with
  | none => exact absurd h.1 (by decide)
  | some v =>
    cases p with
    | none => exact absurd h.2 (by decide)
    | some w => exact ⟨by simp [ho, hm, hf], fun rest => by simp [ho, hm, hb]⟩

theorem hlt : Statement .hlt := fun _ => ⟨rfl, fun _ => rfl⟩
theorem ret : Statement .ret := fun _ => ⟨rfl, fun _ => rfl⟩
theorem push (a : Operand) : Statement (.push a) :=
  one_operand .push .push (fun _ => rfl) (fun _ => rfl) (fun _ => rfl) rfl (fun _ _ => rfl) a
theorem pop (a : Operand) : Statement (.pop a) :=
  one_operand .pop .pop (fun _ => rfl) (fun _ => rfl) (fun _ => rfl) rfl (fun _ _ => rfl) a
theorem prn (a : Operand) : Statement (.prn a) :=
  one_operand .prn .prn (fun _ => rfl) (fun _ => rfl) (fun _ => rfl) rfl (fun _ _ => rfl) a
theorem pra (a : Operand) : Statement (.pra a) :=
  one_operand .pra .pra (fun _ => rfl) (fun _ => rfl) (fun _ => rfl) rfl (fun _ _ => rfl) a
theorem call (a : Operand) : Statement (.call a) :=
  one_operand .call .call (fun _ => rfl) (fun _ => rfl) (fun _ => rfl) rfl (fun _ _ => rfl) a
theorem jmp (a : Operand) : Statement (.jmp a) :=
  one_operand .jmp .jmp (fun _ => rfl) (fun _ => rfl) (fun _ => rfl) rfl (fun _ _ => rfl) a
theorem jeq (a : Operand) : Statement (.jeq a) :=
  one_operand .jeq .jeq (fun _ => rfl) (fun _ => rfl) (fun _ => rfl) rfl (fun _ _ => rfl) a
theorem jne (a : Operand) : Statement (.jne a) :=
  one_operand .jne .jne (fun _ => rfl) (fun _ => rfl) (fun _ => rfl) rfl (fun _ _ => rfl) a
theorem not (a : Operand) : Statement (.not a) :=
  one_operand .not .not (fun _ => rfl) (fun _ => rfl) (fun _ => rfl) rfl (fun _ _ => rfl) a
theorem ldi (a imm : Operand) : Statement (.ldi a imm) :=
  two_operands .ldi .ldi (fun _ _ => rfl) (fun _ _ => rfl) (fun _ _ => rfl) rfl (fun _ _ => rfl) a imm
theorem st (a b : Operand) : Statement (.st a b) :=
  two_operands .st .st (fun _ _ => rfl) (fun _ _ => rfl) (fun _ _ => rfl) rfl (fun _ _ => rfl) a b
theorem add (a b : Operand) : Statement (.add a b) :=
  two_operands .add .add (fun _ _ => rfl) (fun _ _ => rfl) (fun _ _ => rfl) rfl (fun _ _ => rfl) a b
theorem sub (a b : Operand) : Statement (.sub a b) :=
  two_operands .sub .sub (fun _ _ => rfl) (fun _ _ => rfl) (fun _ _ => rfl) rfl (fun _ _ => rfl) a b
theorem mul (a b : Operand) : Statement (.mul a b) :=
  two_operands .mul .mul (fun _ _ => rfl) (fun _ _ => rfl) (fun _ _ => rfl) rfl (fun _ _ => rfl) a b
theorem div (a b : Operand) : Statement (.div a b) :=
  two_operands .div .div (fun _ _ => rfl) (fun _ _ => rfl) (fun _ _ => rfl) rfl (fun _ _ => rfl) a b
theorem mod (a b : Operand) : Statement (.mod a b) :=
  two_operands .mod .mod (fun _ _ => rfl) (fun _ _ => rfl) (fun _ _ => rfl) rfl (fun _ _ => rfl) a b
theorem addi (a imm : Operand) : Statement (.addi a imm) :=
  two_operands .addi .addi (fun _ _ => rfl) (fun _ _ => rfl) (fun _ _ => rfl) rfl (fun _ _ => rfl) a imm
theorem cmp (a b : Operand) : Statement (.cmp a b) :=
  two_operands .cmp .cmp (fun _ _ => rfl) (fun _ _ => rfl) (fun _ _ => rfl) rfl (fun _ _ => rfl) a b
theorem and (a b : Operand) : Statement (.and a b) :=
  two_operands .and .and (fun _ _ => rfl) (fun _ _ => rfl) (fun _ _ => rfl) rfl (fun _ _ => rfl) a b
theorem or (a b : Operand) : Statement (.or a b) :=
  two_operands .or .or (fun _ _ => rfl) (fun _ _ => rfl) (fun _ _ => rfl) rfl (fun _ _ => rfl) a b
theorem xor (a b : Operand) : Statement (.xor a b) :=
  two_operands .xor .xor (fun _ _ => rfl) (fun _ _ => rfl) (fun _ _ => rfl) rfl (fun _ _ => rfl) a b
theorem shl (a b : Operand) : Statement (.shl a b) :=
  two_operands .shl .shl (fun _ _ => rfl) (fun _ _ => rfl) (fun _ _ => rfl) rfl (fun _ _ => rfl) a b
theorem shr (a b : Operand) : Statement (.shr a b) :=
  two_operands .shr .shr (fun _ _ => rfl) (fun _ _ => rfl) (fun _ _ => rfl) rfl (fun _ _ => rfl) a b

end Sys2Proof.Laws.OperandsRebuild
end

