-- ==== Sys2Proof/Tests/Slice0.lean ====
section
/-! SUPPORT. The model's own tests. The expected results are those of spec/95_test_vectors.md (the
section is named) or worked by hand from the rule named; none is the model's own answer. -/

open Sys2Proof Sys2Proof.Machine Sys2Proof.Claim

namespace Sys2Proof.Tests

/-! ### Small states -/

/-- Reset with the registers R0..R3 and the program counter set and `bytes` at the program counter. -/
def withBytes (pc r0 r1 r2 r3 : Byte) (bytes : List Byte) : State :=
  { State.reset with
    pc := pc, x := #v[r0, r1, r2, r3, 0#8, 0#8, 0#8, 0xF4#8], mem := Memory.load pc.toNat bytes [] }

/-- The same with the stack pointer set and one more cell. -/
def withStack (pc r0 r1 sp : Byte) (bytes : List Byte) (cell : Nat) (v : Byte) : State :=
  { State.reset with
    pc := pc, x := #v[r0, r1, 0#8, 0#8, 0#8, 0#8, 0#8, sp],
    mem := Memory.setByte (Memory.load pc.toNat bytes []) cell v }

/-- What `view` shows of the next state, if there is one. -/
def after {α : Type} (view : State → α) (o : Host.Outcome State Fault Refusal) : Option α :=
  match o with
  | .next t => some (view t)
  | .fault _ => none
  | .refused _ => none

/-- One step of a state, seen through `view`. -/
def stepped {α : Type} (view : State → α) (s : State) : Option α := after view (step s)

/-! ### Well-formedness: one ill-formed term for each check -/

theorem test_wf_accepts : (Instr.add (regByte 7) (regByte 0)).wellFormed = true := by decide
theorem test_wf_refuses_absent_register : (Instr.push none).wellFormed = false := by decide
theorem test_wf_refuses_register_eight : (Instr.jmp (some 8#8)).wellFormed = false := by decide
theorem test_wf_refuses_second_register_nine : (Instr.st (regByte 0) (some 9#8)).wellFormed = false := by decide
theorem test_wf_refuses_absent_immediate : (Instr.ldi (regByte 0) none).wellFormed = false := by decide
theorem test_wf_accepts_any_immediate : (Instr.addi (regByte 0) (some 0xFF#8)).wellFormed = true := by decide
theorem test_complete_refuses_absent : (Instr.addi none (some 1#8)).complete = false := by decide
theorem test_complete_accepts_illegal_index : (Instr.jeq (some 9#8)).complete = true := by decide

/-! ### Decoding: every constructor, from its word written out bit by bit (spec/30_encoding.md rule R57) -/

theorem test_decode_hlt : decode [0b00000001#8, 0b00000010#8] = .ok (.hlt, [0b00000010#8]) := by rfl
theorem test_decode_ret : decode [0b00010001#8] = .ok (.ret, []) := by rfl
theorem test_decode_push : decode [0b01000101#8, 0b00000101#8, 0b00000001#8] = .ok (.push (regByte 5), [0b00000001#8]) := by rfl
theorem test_decode_pop : decode [0b01000110#8, 0b00000101#8, 0b00000001#8] = .ok (.pop (regByte 5), [0b00000001#8]) := by rfl
theorem test_decode_prn : decode [0b01000111#8, 0b00000101#8, 0b00000001#8] = .ok (.prn (regByte 5), [0b00000001#8]) := by rfl
theorem test_decode_pra : decode [0b01001000#8, 0b00000101#8, 0b00000001#8] = .ok (.pra (regByte 5), [0b00000001#8]) := by rfl
theorem test_decode_call : decode [0b01010000#8, 0b00000101#8, 0b00000001#8] = .ok (.call (regByte 5), [0b00000001#8]) := by rfl
theorem test_decode_jmp : decode [0b01010100#8, 0b00000101#8, 0b00000001#8] = .ok (.jmp (regByte 5), [0b00000001#8]) := by rfl
theorem test_decode_jeq : decode [0b01010101#8, 0b00000101#8, 0b00000001#8] = .ok (.jeq (regByte 5), [0b00000001#8]) := by rfl
theorem test_decode_jne : decode [0b01010110#8, 0b00000101#8, 0b00000001#8] = .ok (.jne (regByte 5), [0b00000001#8]) := by rfl
theorem test_decode_not : decode [0b01101001#8, 0b00000101#8, 0b00000001#8] = .ok (.not (regByte 5), [0b00000001#8]) := by rfl
theorem test_decode_ldi : decode [0b10000010#8, 0b00000011#8, 0b11001000#8] = .ok (.ldi (regByte 3) (some 200#8), []) := by rfl
theorem test_decode_addi : decode [0b10100101#8, 0b00000011#8, 0b11001000#8] = .ok (.addi (regByte 3) (some 200#8), []) := by rfl
theorem test_decode_st : decode [0b10000100#8, 0b00000110#8, 0b00000001#8] = .ok (.st (regByte 6) (regByte 1), []) := by rfl
theorem test_decode_add : decode [0b10100000#8, 0b00000110#8, 0b00000001#8] = .ok (.add (regByte 6) (regByte 1), []) := by rfl
theorem test_decode_sub : decode [0b10100001#8, 0b00000110#8, 0b00000001#8] = .ok (.sub (regByte 6) (regByte 1), []) := by rfl
theorem test_decode_mul : decode [0b10100010#8, 0b00000110#8, 0b00000001#8] = .ok (.mul (regByte 6) (regByte 1), []) := by rfl
theorem test_decode_div : decode [0b10100011#8, 0b00000110#8, 0b00000001#8] = .ok (.div (regByte 6) (regByte 1), []) := by rfl
theorem test_decode_mod : decode [0b10100100#8, 0b00000110#8, 0b00000001#8] = .ok (.mod (regByte 6) (regByte 1), []) := by rfl
theorem test_decode_cmp : decode [0b10100111#8, 0b00000110#8, 0b00000001#8] = .ok (.cmp (regByte 6) (regByte 1), []) := by rfl
theorem test_decode_xor : decode [0b10101011#8, 0b00000110#8, 0b00000001#8] = .ok (.xor (regByte 6) (regByte 1), []) := by rfl
theorem test_decode_shl : decode [0b10101100#8, 0b00000110#8, 0b00000001#8] = .ok (.shl (regByte 6) (regByte 1), []) := by rfl
theorem test_decode_shr : decode [0b10101101#8, 0b00000110#8, 0b00000001#8] = .ok (.shr (regByte 6) (regByte 1), []) := by rfl
theorem test_decode_and : decode [0b10101000#8, 0b00000110#8, 0b00000001#8] = .ok (.and (regByte 6) (regByte 1), []) := by rfl
theorem test_decode_or : decode [0b10101010#8, 0b00000110#8, 0b00000001#8] = .ok (.or (regByte 6) (regByte 1), []) := by rfl

/-- Section 2.6 rows 1, 2, 3, 5. -/
theorem test_decode_unknown :
    [0x00#8, 0xC0#8, 0x65#8, 0xA6#8].map (fun v => lookupOpcode specConfig v) =
      [.error .unknownInstruction, .error .unknownInstruction, .error .unknownInstruction,
       .error .unknownInstruction] := by rfl
/-- Section 2.6 row 5, with the parameter holding 0xA6. -/
theorem test_decode_routed :
    lookupOpcode { specConfig with aluRoutedUnimplemented := [0xA6#8] } 0xA6#8 =
      .error .unsupportedAluOperation := by rfl
theorem test_decode_empty : decode [] = .error .noOpcodeByte := by rfl
theorem test_encode_ldi : encode (.ldi (regByte 0) (some 8#8)) = some [0x82#8, 0x00#8, 0x08#8] := by rfl
theorem test_encode_incomplete : encode (.ldi (regByte 0) none) = none := by rfl
theorem test_table_word : decodeTableWord 8 0xA1 = some (.sub (regByte 0) (regByte 0)) := by rfl
theorem test_table_word_bytes : decodeTableWord 24 0x080082 = some (.ldi (regByte 0) (some 8#8)) := by rfl
theorem test_specConfig_admissible : specConfig.admissible = true := by decide
/-- A map with two rows for one byte, and one whose PRN byte sets bit 4, are not admissible. -/
theorem test_admissible_refuses :
    (Config.mk ((0x01#8, .ret) :: specOpcodeMap) []).admissible = false ∧
    (Config.mk (specOpcodeMap.map (fun r => if r.2 = .prn then (0x57#8, .prn) else r)) []).admissible = false ∧
    (Config.mk specOpcodeMap [0xA0#8]).admissible = false := by decide
/-- The numeric fault codes of spec/60_exceptions.md rule R140. -/
theorem test_fault_codes :
    [FaultKind.unknownInstruction, .unsupportedAluOperation, .divideByZero, .outOfRangeAddress].map
      FaultKind.code = [1, 2, 3, 4] := by rfl

/-! ### One step of every instruction -/

/-- Section 1.1. -/
theorem test_ldi :
    stepped (fun t => (t.x[0], t.pc, t.status)) (withBytes 0#8 0#8 0#8 0#8 0#8 [0x82#8, 0x00#8, 0x08#8]) =
      some (8#8, 3#8, .running) := by decide
/-- Section 2.1 row 7. -/
theorem test_ldi_advance_fault :
    stepped (fun t => (t.x[1], t.pc, t.status)) (withBytes 253#8 0#8 0#8 0#8 0#8 [0x82#8, 0x01#8, 0x09#8]) =
      some (9#8, 253#8, .faulted .outOfRangeAddress) := by decide
/-- Section 2.1 row 9. -/
theorem test_st :
    stepped (fun t => (Memory.byteAt t.mem 0x80, t.pc)) (withBytes 0#8 128#8 72#8 0#8 0#8 [0x84#8, 0x00#8, 0x01#8]) =
      some (0x48#8, 3#8) := by decide
/-- Section 2.1 row 10. -/
theorem test_st_own_opcode :
    stepped (fun t => (Memory.byteAt t.mem 0, t.pc)) (withBytes 0#8 0#8 0#8 0#8 171#8 [0x84#8, 0x02#8, 0x03#8]) =
      some (0xAB#8, 3#8) := by decide
/-- Section 2.1 row 4. -/
theorem test_prn :
    stepped (fun t => (t.out, t.pc)) (withBytes 3#8 8#8 0#8 0#8 0#8 [0x47#8, 0x00#8]) =
      some ([.num 8#8], 5#8) := by decide
/-- Section 2.1 row 20. -/
theorem test_prn_advance_fault :
    stepped (fun t => (t.out, t.pc, t.status)) (withBytes 254#8 7#8 0#8 0#8 0#8 [0x47#8, 0x00#8]) =
      some ([.num 7#8], 254#8, .faulted .outOfRangeAddress) := by decide
/-- Section 2.1 row 16. -/
theorem test_pra :
    stepped (fun t => (t.out, t.pc)) (withBytes 0#8 0#8 0#8 72#8 0#8 [0x48#8, 0x02#8]) =
      some ([.chr 72#8], 2#8) := by decide
/-- Section 2.2 row 1. -/
theorem test_push :
    stepped (fun t => (t.x[7], Memory.byteAt t.mem 0xF3, t.pc)) (withBytes 0#8 5#8 0#8 0#8 0#8 [0x45#8, 0x00#8]) =
      some (0xF3#8, 5#8, 2#8) := by decide
/-- Section 2.2 row 4. -/
theorem test_push_r7 :
    stepped (fun t => (t.x[7], Memory.byteAt t.mem 0xF3, t.pc)) (withBytes 0#8 0#8 0#8 0#8 0#8 [0x45#8, 0x07#8]) =
      some (0xF3#8, 0xF3#8, 2#8) := by decide
/-- Section 2.2 row 2. -/
theorem test_pop :
    stepped (fun t => (t.x[1], t.x[7], t.pc)) (withStack 2#8 0#8 0#8 243#8 [0x46#8, 0x01#8] 243 5#8) =
      some (5#8, 0xF4#8, 4#8) := by decide
/-- Section 2.2 row 5. -/
theorem test_pop_r7 :
    stepped (fun t => (t.x[7], t.pc)) (withStack 0#8 0#8 0#8 244#8 [0x46#8, 0x07#8] 244 32#8) =
      some (0x21#8, 2#8) := by decide
/-- Section 2.3 row 1. -/
theorem test_call :
    stepped (fun t => (t.x[7], Memory.byteAt t.mem 0xF3, t.pc)) (withBytes 13#8 0#8 0#8 18#8 0#8 [0x50#8, 0x02#8]) =
      some (0xF3#8, 0x0F#8, 0x12#8) := by decide
/-- Section 2.3 row 3. -/
theorem test_call_r7 :
    stepped (fun t => (t.x[7], Memory.byteAt t.mem 0xF3, t.pc)) (withBytes 6#8 0#8 0#8 0#8 0#8 [0x50#8, 0x07#8]) =
      some (0xF3#8, 8#8, 0xF3#8) := by decide
/-- Section 2.3 row 2. -/
theorem test_ret :
    stepped (fun t => (t.x[7], t.pc)) (withStack 29#8 0#8 0#8 243#8 [0x11#8] 243 15#8) =
      some (0xF4#8, 0x0F#8) := by decide
/-- Section 2.3 row 10. -/
theorem test_ret_last_cell :
    stepped (fun t => (t.x[7], t.pc, t.status)) (withStack 255#8 0#8 0#8 243#8 [0x11#8] 243 4#8) =
      some (0xF4#8, 4#8, .running) := by decide
/-- Section 2.3 row 12. -/
theorem test_jmp :
    stepped State.pc (withBytes 0#8 254#8 0#8 0#8 0#8 [0x54#8, 0x00#8]) =
      some 0xFE#8 := by decide
/-- Section 2.3 row 15. -/
theorem test_jmp_bad_index :
    stepped (fun t => (t.pc, t.status)) (withBytes 0#8 0#8 0#8 0#8 0#8 [0x54#8, 0x08#8]) =
      some (0#8, .faulted .outOfRangeAddress) := by decide
/-- Section 2.3 row 17. -/
theorem test_jeq_taken :
    stepped State.pc (State.setFl (withBytes 0#8 0#8 0#8 64#8 0#8 [0x55#8, 0x02#8]) 1#8) =
      some 0x40#8 := by decide
/-- Section 2.3 row 25. -/
theorem test_jeq_not_taken_bad_index :
    stepped (fun t => (t.pc, t.status)) (State.setFl (withBytes 0#8 0#8 0#8 0#8 0#8 [0x55#8, 0x09#8]) 2#8) =
      some (2#8, .running) := by decide
/-- Section 2.3 row 24. -/
theorem test_jne_at_reset_flags :
    stepped State.pc (withBytes 0#8 0#8 0#8 64#8 0#8 [0x56#8, 0x02#8]) =
      some 0x40#8 := by decide
/-- Section 2.3 row 21. -/
theorem test_jne_not_taken :
    stepped State.pc (State.setFl (withBytes 0#8 0#8 0#8 64#8 0#8 [0x56#8, 0x02#8]) 1#8) =
      some 2#8 := by decide
/-- Section 2.4 row 2. -/
theorem test_hlt :
    stepped (fun t => (t.pc, t.status)) (withBytes 5#8 0#8 0#8 0#8 0#8 [0x01#8]) =
      some (5#8, .halted) := by decide
/-- Section 2.4 row 3. -/
theorem test_hlt_last_cell :
    stepped (fun t => (t.pc, t.status)) (withBytes 255#8 0#8 0#8 0#8 0#8 [0x01#8]) =
      some (255#8, .halted) := by decide
/-- Section 2.5. -/
theorem test_add :
    stepped (fun t => (t.x[0], t.pc, t.status)) (withBytes 0#8 200#8 100#8 0#8 0#8 [0xA0#8, 0x00#8, 0x01#8]) =
      some (44#8, 3#8, .running) := by decide
/-- Section 2.5. -/
theorem test_sub :
    stepped (fun t => (t.x[0], t.pc, t.status)) (withBytes 0#8 3#8 5#8 0#8 0#8 [0xA1#8, 0x00#8, 0x01#8]) =
      some (254#8, 3#8, .running) := by decide
/-- Section 2.5. -/
theorem test_mul :
    stepped (fun t => (t.x[0], t.pc, t.status)) (withBytes 0#8 255#8 2#8 0#8 0#8 [0xA2#8, 0x00#8, 0x01#8]) =
      some (254#8, 3#8, .running) := by decide
/-- Section 2.5. -/
theorem test_div :
    stepped (fun t => (t.x[0], t.pc, t.status)) (withBytes 0#8 17#8 5#8 0#8 0#8 [0xA3#8, 0x00#8, 0x01#8]) =
      some (3#8, 3#8, .running) := by decide
/-- Section 2.5. -/
theorem test_mod :
    stepped (fun t => (t.x[0], t.pc, t.status)) (withBytes 0#8 17#8 5#8 0#8 0#8 [0xA4#8, 0x00#8, 0x01#8]) =
      some (2#8, 3#8, .running) := by decide
/-- Section 2.5. -/
theorem test_and :
    stepped (fun t => (t.x[0], t.pc, t.status)) (withBytes 0#8 204#8 170#8 0#8 0#8 [0xA8#8, 0x00#8, 0x01#8]) =
      some (136#8, 3#8, .running) := by decide
/-- Section 2.5. -/
theorem test_or :
    stepped (fun t => (t.x[0], t.pc, t.status)) (withBytes 0#8 204#8 170#8 0#8 0#8 [0xAA#8, 0x00#8, 0x01#8]) =
      some (238#8, 3#8, .running) := by decide
/-- Section 2.5. -/
theorem test_xor :
    stepped (fun t => (t.x[0], t.pc, t.status)) (withBytes 0#8 204#8 170#8 0#8 0#8 [0xAB#8, 0x00#8, 0x01#8]) =
      some (102#8, 3#8, .running) := by decide
/-- Section 2.5. -/
theorem test_shl :
    stepped (fun t => (t.x[0], t.pc, t.status)) (withBytes 0#8 193#8 1#8 0#8 0#8 [0xAC#8, 0x00#8, 0x01#8]) =
      some (130#8, 3#8, .running) := by decide
/-- Section 2.5. -/
theorem test_shr :
    stepped (fun t => (t.x[0], t.pc, t.status)) (withBytes 0#8 150#8 2#8 0#8 0#8 [0xAD#8, 0x00#8, 0x01#8]) =
      some (37#8, 3#8, .running) := by decide
/-- Section 2.5. -/
theorem test_shl_by_255 :
    stepped (fun t => (t.x[0], t.pc, t.status)) (withBytes 0#8 3#8 255#8 0#8 0#8 [0xAC#8, 0x00#8, 0x01#8]) =
      some (0#8, 3#8, .running) := by decide
/-- Section 2.5. -/
theorem test_shr_by_8 :
    stepped (fun t => (t.x[0], t.pc, t.status)) (withBytes 0#8 128#8 8#8 0#8 0#8 [0xAD#8, 0x00#8, 0x01#8]) =
      some (0#8, 3#8, .running) := by decide
/-- Section 2.5, second table, row 1. -/
theorem test_add_r7 :
    stepped (fun t => (t.x[7], t.pc, t.status)) (withBytes 0#8 16#8 0#8 0#8 0#8 [0xA0#8, 0x07#8, 0x00#8]) =
      some (0x04#8, 3#8, .running) := by decide
/-- Section 2.5, same register twice. -/
theorem test_sub_same :
    stepped (fun t => (t.x[2], t.pc, t.status)) (withBytes 0#8 0#8 0#8 200#8 0#8 [0xA1#8, 0x02#8, 0x02#8]) =
      some (0#8, 3#8, .running) := by decide
/-- Section 2.5, same register twice. -/
theorem test_mul_same :
    stepped (fun t => (t.x[2], t.pc, t.status)) (withBytes 0#8 0#8 0#8 200#8 0#8 [0xA2#8, 0x02#8, 0x02#8]) =
      some (64#8, 3#8, .running) := by decide
/-- Section 2.5. -/
theorem test_div_by_zero :
    stepped (fun t => (t.x[0], t.pc, t.status)) (withBytes 0#8 9#8 0#8 0#8 0#8 [0xA3#8, 0x00#8, 0x01#8]) =
      some (9#8, 0#8, .faulted .divideByZero) := by decide
/-- Section 2.5, second table, row 2. -/
theorem test_div_fault_order :
    stepped State.status (withBytes 0#8 0#8 0#8 0#8 0#8 [0xA3#8, 0x09#8, 0x00#8]) =
      some (.faulted .outOfRangeAddress) := by decide
/-- Section 2.5. -/
theorem test_mod_by_zero :
    stepped (fun t => (t.x[0], t.pc, t.status)) (withBytes 0#8 0#8 0#8 0#8 0#8 [0xA4#8, 0x00#8, 0x01#8]) =
      some (0#8, 0#8, .faulted .divideByZero) := by decide
/-- Section 2.5. -/
theorem test_not :
    stepped (fun t => (t.x[0], t.pc, t.status)) (withBytes 0#8 165#8 0#8 0#8 0#8 [0x69#8, 0x00#8]) =
      some (0x5A#8, 2#8, .running) := by decide
/-- Section 2.5. -/
theorem test_addi :
    stepped (fun t => (t.x[0], t.pc, t.status)) (withBytes 0#8 250#8 0#8 0#8 0#8 [0xA5#8, 0x00#8, 0x0A#8]) =
      some (4#8, 3#8, .running) := by decide
/-- Section 2.5. -/
theorem test_addi_unchecked_immediate :
    stepped (fun t => (t.x[0], t.pc, t.status)) (withBytes 0#8 1#8 50#8 0#8 0#8 [0xA5#8, 0x00#8, 0x09#8]) =
      some (10#8, 3#8, .running) := by decide
/-- Section 2.5. -/
theorem test_cmp_unsigned :
    stepped (fun t => (t.fl, t.x[0], t.pc)) (State.setFl (withBytes 0#8 128#8 127#8 0#8 0#8 [0xA7#8, 0x00#8, 0x01#8]) 4#8) =
      some (2#8, 128#8, 3#8) := by decide
/-- Section 2.5. -/
theorem test_cmp_less :
    stepped (fun t => (t.fl, t.pc)) (withBytes 0#8 0#8 255#8 0#8 0#8 [0xA7#8, 0x00#8, 0x01#8]) =
      some (4#8, 3#8) := by decide
/-- Section 2.6 row 8. -/
theorem test_unknown_before_operands :
    stepped (fun t => (t.pc, t.status)) (withBytes 255#8 0#8 0#8 0#8 0#8 [0x02#8]) =
      some (255#8, .faulted .unknownInstruction) := by decide

/-- Section 2.4 row 4 and section 2.6 row 7: a terminal machine has no step. -/
theorem test_terminal_has_no_step :
    step { State.reset with status := .halted } = .fault .machineHalted ∧
    step { State.reset with status := .faulted .divideByZero } = .fault (.machineFaulted .divideByZero) :=
  ⟨rfl, rfl⟩
/-- `withFetchWord` at reset: the very next step runs the word (LDI R0,8, section 1.1). -/
theorem test_withFetchWord :
    stepped (fun t => (t.x[0], t.pc)) (State.reset.withFetchWord 24 0x080082) = some (8#8, 3#8) := by decide
/-- Writing 0 removes the entry, so equal memories are equal data (log 7). -/
theorem test_memory_canonical :
    Memory.setByte (Memory.setByte (Memory.setByte [] 9 1#8) 3 2#8) 9 0#8 = [(3, 2#8)] := by decide
theorem test_image_in_order : (State.start [0x82#8, 0#8, 8#8]).mem = [(0, 0x82#8), (2, 8#8)] := by decide

/-! ### Witnesses: states and operands that meet the hypotheses of each statement, one for each clause,
at the ends of its range -/

/-- A Running state whose last bytes hold the opcode byte `op` at `pc`. -/
def opcodeAt (pc op : Byte) : State := { State.reset with pc := pc, mem := [(pc.toNat, op)] }

/-- The reset state with the program counter at `pc`. -/
def atPc (pc : Byte) : State := { State.reset with pc := pc }

/-- The reset state with the stack pointer at `sp`. -/
def atSp (sp : Byte) : State := State.reset.setSp sp

/-- The hypotheses of the five clauses of a 3-byte rule: the ends of the completing range, the address
of the advance fault, an absent and an illegal operand, and the two addresses with an absent one. -/
def threeByteWitness (op : Byte) : Prop :=
  (atPc 0#8).pc.toNat ≤ 252 ∧ (atPc 252#8).pc.toNat ≤ 252 ∧ (atPc 253#8).pc.toNat = 253 ∧
  Operand.isReg none = false ∧ Operand.isReg (some 8#8) = false ∧
  ((opcodeAt 254#8 op).status = .running ∧ Memory.byteAt (opcodeAt 254#8 op).mem (opcodeAt 254#8 op).pc.toNat = op ∧
    254 ≤ (opcodeAt 254#8 op).pc.toNat) ∧
  ((opcodeAt 255#8 op).status = .running ∧ Memory.byteAt (opcodeAt 255#8 op).mem (opcodeAt 255#8 op).pc.toNat = op ∧
    254 ≤ (opcodeAt 255#8 op).pc.toNat)

theorem threeByteWitness_holds (op : Byte) : threeByteWitness op := by
  refine ⟨by decide, by decide, by decide, by decide, by decide, ⟨rfl, ?_, ?_⟩, ⟨rfl, ?_, ?_⟩⟩ <;>
    simp [opcodeAt, Memory.byteAt]

/-- The hypotheses of the five clauses of a 2-byte rule. -/
def twoByteWitness (op : Byte) : Prop :=
  (atPc 0#8).pc.toNat ≤ 253 ∧ (atPc 253#8).pc.toNat ≤ 253 ∧ (atPc 254#8).pc.toNat = 254 ∧
  Operand.isReg none = false ∧ Operand.isReg (some 8#8) = false ∧
  ((opcodeAt 255#8 op).status = .running ∧ Memory.byteAt (opcodeAt 255#8 op).mem (opcodeAt 255#8 op).pc.toNat = op ∧
    (opcodeAt 255#8 op).pc.toNat = 255)

theorem twoByteWitness_holds (op : Byte) : twoByteWitness op := by
  refine ⟨by decide, by decide, by decide, by decide, by decide, ⟨rfl, ?_, ?_⟩⟩ <;>
    simp [opcodeAt, Memory.byteAt]

theorem witness_StRule : threeByteWitness 0x84#8 := threeByteWitness_holds _
theorem witness_AddSubMulRules : threeByteWitness 0xA0#8 ∧ threeByteWitness 0xA1#8 ∧ threeByteWitness 0xA2#8 :=
  ⟨threeByteWitness_holds _, threeByteWitness_holds _, threeByteWitness_holds _⟩
theorem witness_CmpRule : threeByteWitness 0xA7#8 := threeByteWitness_holds _
theorem witness_AddImmediateRule : threeByteWitness 0xA5#8 := threeByteWitness_holds _
/-- The last clause: `pc = 250`, so that LDI and PRN both complete. -/
theorem witness_LdiRule : threeByteWitness 0x82#8 ∧ (atPc 250#8).pc.toNat ≤ 250 :=
  ⟨threeByteWitness_holds _, by decide⟩
theorem witness_BitwiseRules : threeByteWitness 0xA8#8 ∧ threeByteWitness 0xAA#8 ∧ threeByteWitness 0xAB#8 ∧
    ∃ t u v : State, exec (.and (regByte 0) (regByte 7)) State.reset = .next t ∧
      exec (.or (regByte 0) (regByte 7)) State.reset = .next u ∧
      exec (.xor (regByte 0) (regByte 7)) State.reset = .next v :=
  ⟨threeByteWitness_holds _, threeByteWitness_holds _, threeByteWitness_holds _, _, _, _, rfl, rfl, rfl⟩
/-- The last clause with an amount of exactly 8 and with the amount 0xF4 of R7. -/
theorem witness_ShiftRules : threeByteWitness 0xAC#8 ∧ threeByteWitness 0xAD#8 ∧
    (∃ t u : State, exec (.shl (regByte 0) (regByte 7)) (atSp 8#8) = .next t ∧
      exec (.shr (regByte 0) (regByte 7)) (atSp 8#8) = .next u ∧ 8 ≤ (atSp 8#8).x[7].toNat) ∧
    8 ≤ State.reset.x[7].toNat :=
  ⟨threeByteWitness_holds _, threeByteWitness_holds _, ⟨_, _, rfl, rfl, by decide⟩, by decide⟩
/-- A non-zero divisor (R7) at `pc` 252 and 253, and a zero divisor (R0). -/
theorem witness_DivModRules : threeByteWitness 0xA3#8 ∧ threeByteWitness 0xA4#8 ∧
    ((atPc 252#8).x[(7 : RegIdx)] ≠ 0#8 ∧ (atPc 252#8).pc.toNat ≤ 252) ∧
    ((atPc 253#8).x[(7 : RegIdx)] ≠ 0#8 ∧ (atPc 253#8).pc.toNat = 253) ∧ State.reset.x[(0 : RegIdx)] = 0#8 :=
  ⟨threeByteWitness_holds _, threeByteWitness_holds _, by decide, by decide, by decide⟩
theorem witness_QuotientAndRemainderFit : (atSp 1#8).x[(7 : RegIdx)] ≠ 0#8 ∧ (atSp 255#8).x[(7 : RegIdx)] ≠ 0#8 := by
  decide
theorem witness_NotRule : twoByteWitness 0x69#8 ∧ ∃ t : State, exec (.not (regByte 7)) State.reset = .next t :=
  ⟨twoByteWitness_holds _, _, rfl⟩
theorem witness_PrintRules : twoByteWitness 0x47#8 ∧ twoByteWitness 0x48#8 :=
  ⟨twoByteWitness_holds _, twoByteWitness_holds _⟩
/-- The pointer at 1 and at 255 (it may be decremented), at `pc` 253 and 254; and at 0 (it may not). -/
theorem witness_PushRule : twoByteWitness 0x45#8 ∧
    ((atSp 1#8).x[7] ≠ 0#8 ∧ (atSp 1#8).pc.toNat ≤ 253) ∧ (atSp 255#8).x[7] ≠ 0#8 ∧
    ((atPc 254#8).x[7] ≠ 0#8 ∧ (atPc 254#8).pc.toNat = 254) ∧ (atSp 0#8).x[7] = 0#8 :=
  ⟨twoByteWitness_holds _, by decide, by decide, by decide, by decide⟩
/-- The pointer at 254 and at 255 for R0; for R7 the popped value is what counts (0 and 255). -/
theorem witness_PopRule : twoByteWitness 0x46#8 ∧
    ((if (0 : RegIdx) = 7 then Memory.byteAt (atSp 254#8).mem (atSp 254#8).x[7].toNat else (atSp 254#8).x[7]) ≠ 255#8) ∧
    ((if (0 : RegIdx) = 7 then Memory.byteAt (atSp 255#8).mem (atSp 255#8).x[7].toNat else (atSp 255#8).x[7]) = 255#8) ∧
    ((if (7 : RegIdx) = 7 then Memory.byteAt (atSp 255#8).mem (atSp 255#8).x[7].toNat else (atSp 255#8).x[7]) ≠ 255#8) ∧
    ((if (7 : RegIdx) = 7 then Memory.byteAt [(0xF4, 255#8)] State.reset.x[7].toNat else State.reset.x[7]) = 255#8) :=
  ⟨twoByteWitness_holds _, by decide, by decide, by decide, by decide⟩
theorem witness_PushPopRoundTrip :
    ((atSp 1#8).x[7] ≠ 0#8 ∧ (atSp 1#8).pc.toNat ≤ 251) ∧ ((atPc 251#8).x[7] ≠ 0#8 ∧ (atPc 251#8).pc.toNat ≤ 251) := by
  decide
/-- Completion at `pc = 253` and `sp = 1`; each of the three faults alone; the step clause at 254 and 255. -/
theorem witness_CallRule :
    ((atPc 253#8).x[7] ≠ 0#8 ∧ (atPc 253#8).pc.toNat ≤ 253) ∧ ((atSp 1#8).x[7] ≠ 0#8 ∧ (atSp 1#8).pc.toNat ≤ 253) ∧
    Operand.isReg (some 8#8) = false ∧ (atSp 0#8).x[7] = 0#8 ∧ 254 ≤ (atPc 254#8).pc.toNat ∧
    ((opcodeAt 254#8 0x50#8).status = .running ∧ Memory.byteAt (opcodeAt 254#8 0x50#8).mem 254 = 0x50#8) ∧
    ((opcodeAt 255#8 0x50#8).status = .running ∧ Memory.byteAt (opcodeAt 255#8 0x50#8).mem 255 = 0x50#8) := by
  decide
theorem witness_RetRule :
    (atSp 254#8).x[7] ≠ 255#8 ∧ (atSp 255#8).x[7] = 255#8 ∧
    ((opcodeAt 255#8 0x11#8).status = .running ∧ Memory.byteAt (opcodeAt 255#8 0x11#8).mem 255 = 0x11#8) := by decide
theorem witness_JmpRule :
    Operand.isReg none = false ∧ Operand.isReg (some 8#8) = false ∧
    ((opcodeAt 255#8 0x54#8).status = .running ∧ Memory.byteAt (opcodeAt 255#8 0x54#8).mem 255 = 0x54#8) := by decide
/-- E set (`fl = 1`) and clear (`fl = 0`, `fl = 4`), `pc` at 253 and 254, a bad operand. -/
theorem witness_ConditionalBranchRules :
    ((atPc 253#8).setFl 1#8).fl.getLsbD 0 = true ∧ ((atPc 253#8).setFl 4#8).fl.getLsbD 0 = false ∧
    State.reset.fl.getLsbD 0 = false ∧ (atPc 253#8).pc.toNat ≤ 253 ∧ 254 ≤ (atPc 254#8).pc.toNat ∧
    Operand.isReg (some 8#8) = false ∧ Operand.isReg none = false := by decide
/-- A CALL at 253 with `sp = 1`, and the state it leaves itself as the state the RET runs in. -/
theorem witness_CallThenRetReturns :
    ((atPc 253#8).setSp 1#8).x[7] ≠ 0#8 ∧ ((atPc 253#8).setSp 1#8).pc.toNat ≤ 253 ∧
    ∃ t : State, exec (.call (regByte 0)) ((atPc 253#8).setSp 1#8) = .next t ∧
      ∃ r : State, r.x[7] = t.x[7] ∧ Memory.byteAt r.mem t.x[7].toNat = Memory.byteAt t.mem t.x[7].toNat :=
  ⟨by decide, by decide, _, rfl, _, rfl, rfl⟩
theorem witness_HltRule :
    (opcodeAt 255#8 0x01#8).status = .running ∧ Memory.byteAt (opcodeAt 255#8 0x01#8).mem 255 = 0x01#8 := by decide

theorem witness_LoadedImageIsInMemory :
    (List.replicate 256 1#8).length ≤ 256 ∧ ([] : List Byte).length ≤ 256 ∧ 255 < 256 :=
  ⟨Nat.le_of_eq List.length_replicate, by decide, by decide⟩
theorem witness_RegisterFileReadWrite : 7 < (8#8 : Byte).toNat ∧ 7 < (255#8 : Byte).toNat := by decide
theorem witness_EqualCellsAreEqualMemories :
    Memory.wf [(0, 1#8), (255, 2#8)] = true ∧ ∀ n : Nat, n < 256 →
      Memory.byteAt [(0, 1#8), (255, 2#8)] n = Memory.byteAt [(0, 1#8), (255, 2#8)] n := ⟨by decide, fun _ _ => rfl⟩
theorem witness_StepKeepsInvariant :
    (opcodeAt 0#8 0xA7#8).Inv ∧ ∃ t : State, stepWith specConfig (opcodeAt 0#8 0xA7#8) = .next t ∧ t.fl = 1#8 :=
  ⟨⟨by decide, by decide⟩, _, rfl, rfl⟩
theorem witness_RunKeepsInvariant :
    (opcodeAt 0#8 0x01#8).Inv ∧ ∃ t : State, Host.Core.run Sys2Proof.core 1 (opcodeAt 0#8 0x01#8) = .next t :=
  ⟨⟨by decide, by decide⟩, _, rfl⟩
theorem witness_DecodeOfEncode :
    specConfig.admissible = true ∧ (Instr.ldi (some 255#8) (some 0#8)).complete = true ∧ Instr.hlt.complete = true ∧
    (Config.mk specOpcodeMap [0xA6#8]).admissible = true := by decide
theorem witness_EncodeOfDecode :
    specConfig.admissible = true ∧
    decodeWith specConfig [0x82#8, 0#8, 8#8, 1#8] = .ok (.ldi (some 0#8) (some 8#8), [1#8]) ∧
    (Instr.ldi (some 0#8) (some 8#8)).complete = true := ⟨by decide, rfl, rfl⟩
theorem witness_StepRunsTheDecodedInstruction :
    (opcodeAt 255#8 0x01#8).status = .running ∧ decode (bytesFromPc (opcodeAt 255#8 0x01#8)) = .ok (.hlt, []) ∧
    decodeWith specConfig (bytesFromPc (opcodeAt 254#8 0x47#8)) = .ok (.prn (regByte 0), []) := ⟨rfl, rfl, rfl⟩
theorem witness_FetchAtTheEndOfMemory :
    (atPc 254#8).pc.toNat ≤ 254 ∧ (atPc 255#8).pc.toNat = 255 ∧ (atPc 253#8).pc.toNat ≤ 253 ∧
    254 ≤ (atPc 254#8).pc.toNat := by decide
/-- An ST at 252 whose operand bytes name R0 and R7, and which stores over its own last byte. -/
theorem witness_StoresAreSeenByTheNextFetchOnly :
    (withBytes 252#8 254#8 0#8 0#8 0#8 [0x84#8, 0#8, 7#8]).status = .running ∧
    (withBytes 252#8 254#8 0#8 0#8 0#8 [0x84#8, 0#8, 7#8]).pc.toNat ≤ 252 ∧
    lookupOpcode specConfig (Memory.byteAt (withBytes 252#8 254#8 0#8 0#8 0#8 [0x84#8, 0#8, 7#8]).mem 252) = .ok .st ∧
    some (Memory.byteAt (withBytes 252#8 254#8 0#8 0#8 0#8 [0x84#8, 0#8, 7#8]).mem 253) = regByte 0 ∧
    some (Memory.byteAt (withBytes 252#8 254#8 0#8 0#8 0#8 [0x84#8, 0#8, 7#8]).mem 254) = regByte 7 :=
  ⟨rfl, by decide, rfl, by decide, by decide⟩
/-- An unknown byte (0x00), and a known one whose step has a next state. -/
theorem witness_UnknownOpcodeFaults :
    State.reset.status = .running ∧ Memory.byteAt State.reset.mem 0 ∉ specConfig.opcodeMap.map Prod.fst ∧
    Memory.byteAt State.reset.mem 0 ∉ specConfig.aluRoutedUnimplemented ∧
    ∃ t : State, stepWith specConfig (opcodeAt 0#8 0x01#8) = .next t :=
  ⟨rfl, by decide, by decide, _, rfl⟩
theorem witness_UnsupportedAluOperationFaults :
    (opcodeAt 0#8 0xA6#8).status = .running ∧
    Memory.byteAt (opcodeAt 0#8 0xA6#8).mem 0 ∈ (Config.mk specOpcodeMap [0xA6#8]).aluRoutedUnimplemented ∧
    ∃ t : State, step (opcodeAt 0#8 0xA6#8) = .next t := ⟨rfl, by decide, _, rfl⟩
theorem witness_RoutedParameterChangesOnlyTheKind :
    specConfig.admissible = true ∧ (Config.mk specOpcodeMap [0xA6#8]).admissible = true ∧
    specConfig.opcodeMap = (Config.mk specOpcodeMap [0xA6#8]).opcodeMap := ⟨by decide, by decide, rfl⟩
/-- An LDI at 252, the last address where one leaves the machine running. -/
theorem witness_AdvanceFollowsTheControlBits :
    specConfig.admissible = true ∧ (Memory.byteAt (opcodeAt 252#8 0x82#8).mem 252).getLsbD 4 = false ∧
    ∃ t : State, stepWith specConfig (opcodeAt 252#8 0x82#8) = .next t ∧ t.status = .running :=
  ⟨by decide, by decide, _, rfl, rfl⟩
theorem witness_AdvanceNeverWraps : (atPc 252#8).pc.toNat + 3 ≤ 255 ∧ 255 < (atPc 253#8).pc.toNat + 3 := by decide
theorem witness_StepExistsOnlyWhenRunning :
    State.reset.status = .running ∧ State.reset.halt.status = .halted ∧
    (raiseFault .divideByZero State.reset).status = .faulted .divideByZero ∧ State.reset.halt.status ≠ .running :=
  ⟨rfl, rfl, rfl, by decide⟩
theorem witness_OnlyHltHalts :
    (∃ t : State, step (opcodeAt 0#8 0x01#8) = .next t ∧ t.status = .halted) ∧
    ∃ t : State, step (opcodeAt 0#8 0x47#8) = .next t ∧ t.status = .running := ⟨⟨_, rfl, rfl⟩, _, rfl, rfl⟩
/-- A precise fault (0x00 is unknown) and the advance fault (a PRN at 254). -/
theorem witness_FaultsArePrecise :
    (∃ t : State, step State.reset = .next t ∧ t.status = .faulted .unknownInstruction) ∧
    ∃ t : State, step (opcodeAt 254#8 0x47#8) = .next t ∧ t.status = .faulted .outOfRangeAddress :=
  ⟨⟨_, rfl, rfl⟩, _, rfl, rfl⟩
/-- 0 / 0 and 0xF4 mod 0, and a DIV that divides. -/
theorem witness_DivideByZeroExactly :
    State.reset.status = .running ∧ zeroDivisor (.div (regByte 0) (regByte 0)) State.reset ∧
    zeroDivisor (.mod (regByte 7) (regByte 0)) State.reset ∧
    ∃ t : State, exec (.div (regByte 0) (regByte 7)) State.reset = .next t :=
  ⟨rfl, ⟨0, 0, .inl rfl, rfl⟩, ⟨7, 0, .inr rfl, rfl⟩, _, rfl⟩
/-- Each of the cases a to f of the table of R144 is met, and none of them by an ADD at reset. -/
theorem witness_OutOfRangeExactly :
    State.reset.status = .running ∧ operandCause (.push none) State.reset = true ∧
    operandCause (.push (some 8#8)) State.reset = true ∧ pointerCause (.push (regByte 0)) (atSp 0#8) = true ∧
    pointerCause .ret (atSp 255#8) = true ∧ returnCause (.call (regByte 0)) (atPc 254#8) = true ∧
    advanceCause (.prn (regByte 0)) (atPc 254#8) = true ∧
    ∃ t : State, exec (.add (regByte 0) (regByte 7)) State.reset = .next t ∧ t.status = .running :=
  ⟨rfl, by decide, by decide, by decide, by decide, by decide, by decide, _, rfl, rfl⟩
/-- POP R0 changes R0 and R7 and may change no other register. -/
theorem witness_RegisterFrame :
    (∃ t : State, exec (.pop (regByte 0)) State.reset = .next t) ∧ mayWriteReg (.pop (regByte 0)) 1 = false ∧
    mayWriteReg (.pop (regByte 0)) 0 = true ∧ mayWriteReg (.pop (regByte 0)) 7 = true := ⟨⟨_, rfl⟩, rfl, rfl, rfl⟩
/-- A form that stores (PUSH R0 to cell 0xF3) and one that does not. -/
theorem witness_MemoryFrame :
    ((∃ t : State, exec (.push (regByte 0)) State.reset = .next t) ∧
      storedCell (.push (regByte 0)) State.reset = some (0xF3#8, 0#8)) ∧
    (∃ t : State, exec (.jmp (regByte 0)) State.reset = .next t) ∧ storedCell (.jmp (regByte 0)) State.reset = none :=
  ⟨⟨⟨_, rfl⟩, rfl⟩, ⟨_, rfl⟩, rfl⟩
theorem witness_OnlyCmpOfTheAluTouchesFlags :
    (∃ t : State, exec (.cmp (regByte 0) (regByte 7)) State.reset = .next t) ∧
    (Instr.add (regByte 0) (regByte 1)).mnemonic.isAlu = true ∧ (Instr.add (regByte 0) (regByte 1)).mnemonic ≠ .cmp :=
  ⟨⟨_, rfl⟩, by decide⟩
/-- A JEQ under two flag values with the same bit 0, and an instruction that reads no flag. -/
theorem witness_FlagsReachOnlyBranches :
    (Instr.jeq (regByte 0)).mnemonic ≠ .cmp ∧ (2#8 : Byte).getLsbD 0 = ((State.reset).setFl 4#8).fl.getLsbD 0 ∧
    (Instr.hlt.mnemonic ≠ .jeq ∧ Instr.hlt.mnemonic ≠ .jne) := by decide
theorem witness_ComparisonSetsExactlyOneFlag :
    (∃ t : State, exec (.cmp (regByte 0) (regByte 0)) State.reset = .next t ∧ t.fl = 1#8) ∧
    (∃ t : State, exec (.cmp (regByte 7) (regByte 0)) State.reset = .next t ∧ t.fl = 2#8) ∧
    (∃ t : State, exec (.cmp (regByte 0) (regByte 7)) State.reset = .next t ∧ t.fl = 4#8) ∧
    (Instr.add (regByte 0) (regByte 7)).mnemonic ≠ .cmp ∧
    ∃ t : State, exec (.add (regByte 0) (regByte 7)) State.reset = .next t :=
  ⟨⟨_, rfl, rfl⟩, ⟨_, rfl, rfl⟩, ⟨_, rfl, rfl⟩, by decide, _, rfl⟩
theorem witness_OutputFrame :
    (∃ t : State, exec (.prn (regByte 7)) State.reset = .next t) ∧
    emitted (.prn (regByte 7)) State.reset = [.num 0xF4#8] := ⟨⟨_, rfl⟩, rfl⟩
theorem witness_OutputOnlyGrows :
    ∃ t : State, Host.Core.run Sys2Proof.core 1 (opcodeAt 0#8 0x47#8) = .next t ∧ t.out = [.num 0#8] := ⟨_, rfl, rfl⟩

end Sys2Proof.Tests
end

/-! SUPPORT and PROOFS for the state of the machine (spec/10_state.md): what one instruction, one step
and a run can do to the state, and the statements of that family. -/

section

namespace Sys2Proof.Machine

open Sys2Proof.Claim

/-! ### What one instruction can do

`Effect s i t` lists the shapes of the state `t` that instruction `i` leaves, run from `s`; that it
leaves out none is `exec_effect`. The frame statements are case splits on it and do not
open `exec`. -/

/-- The states an instruction can leave. Where several mnemonics share a shape, the constructor keeps
what the register table and the output rule say of them (`mayWriteReg`, `emitted`). -/
inductive Effect (s : State) : Instr → State → Prop where
  /-- a fault raised before the first write -/
  | fault {i : Instr} (k : FaultKind) (quiet : emitted i s = []) : Effect s i (raiseFault k s)
  | halt : Effect s .hlt s.halt
  | writeReg {i : Instr} (n : Nat) (a : RegIdx) (v : Byte) (quiet : emitted i s = [])
      (writes : mayWriteReg i a = true) : Effect s i (advance n (s.setReg a v))
  | compare (a b : RegIdx) :
      Effect s (.cmp (regByte a) (regByte b)) (advance 3 (s.setFl (compareFlags (s.reg a) (s.reg b))))
  | print {i : Instr} (e : OutEvent) (emits : emitted i s = [e]) : Effect s i (advance 2 (s.emit e))
  | store (a b : RegIdx) :
      Effect s (.st (regByte a) (regByte b)) (advance 3 (s.writeByte (s.reg a) (s.reg b)))
  | push (a : RegIdx) (p : Byte) :
      Effect s (.push (regByte a)) (advance 2 ((s.setSp p).writeByte p ((s.setSp p).reg a)))
  | pop (a : RegIdx) (p : Byte) :
      Effect s (.pop (regByte a)) (advance 2 ((s.setReg a (s.readByte s.sp)).setSp p))
  | call (a : RegIdx) (p ret : Byte) :
      Effect s (.call (regByte a)) (((s.setSp p).writeByte p ret).setPc ((s.setSp p).reg a))
  | ret (p : Byte) : Effect s .ret ((s.setPc (s.readByte s.sp)).setSp p)
  /-- a jump, or a branch taken -/
  | jump {i : Instr} (q : Byte) (quiet : emitted i s = []) : Effect s i (s.setPc q)
  /-- a branch not taken -/
  | skip {i : Instr} (quiet : emitted i s = []) : Effect s i (advance 2 s)

/-- The handler `r` of instruction `i` ends in a next state of one of the shapes of `Effect`. -/
def EndsInEffect (s : State) (i : Instr) (r : Except FaultKind State) : Prop :=
  ∃ t, settle s r = .next t ∧ Effect s i t

theorem EndsInEffect.ok {s t : State} {i : Instr} (h : Effect s i t) : EndsInEffect s i (.ok t) := ⟨t, rfl, h⟩

theorem EndsInEffect.error {s : State} {i : Instr} (quiet : emitted i s = []) (k : FaultKind) :
    EndsInEffect s i (.error k) := ⟨_, rfl, .fault k quiet⟩

/-- A handler that emits nothing may raise at each of its binds. -/
theorem EndsInEffect.bind {α : Type} {s : State} {i : Instr} {x : Except FaultKind α}
    {g : α → Except FaultKind State} (quiet : emitted i s = [])
    (h : ∀ v, x = .ok v → EndsInEffect s i (g v)) : EndsInEffect s i (x >>= g) := by
  cases x with
  | ok v => exact h v rfl
  | error k => exact EndsInEffect.error quiet k

theorem aluRegReg_effect {i : Instr} {oa : Operand} (hw : ∀ a, mayWriteReg i a = (oa == regByte a))
    (f : Byte → Byte → Except FaultKind Byte) (ob : Operand) {s : State} (quiet : emitted i s = []) :
    EndsInEffect s i (aluRegReg f oa ob s) := by
  rcases aluRegReg_cases f oa ob s with ⟨a, b, rfl, rfl, h⟩ | ⟨-, h⟩
  · rw [h]
    cases f (s.reg a) (s.reg b) with
    | ok r => exact EndsInEffect.ok (.writeReg 3 a r quiet (by simp [hw]))
    | error k => exact EndsInEffect.error quiet k
  · rw [h]
    exact EndsInEffect.error quiet _

theorem aluRegImm_effect {i : Instr} {oa : Operand} (hw : ∀ a, mayWriteReg i a = (oa == regByte a))
    (f : Byte → Byte → Byte) (oimm : Operand) {s : State} (quiet : emitted i s = []) :
    EndsInEffect s i (aluRegImm f oa oimm s) := by
  rcases aluRegImm_cases f oa oimm s with ⟨a, v, rfl, rfl, h⟩ | ⟨-, h⟩
  · rw [h]
    exact EndsInEffect.ok (.writeReg 3 a _ quiet (by simp [hw]))
  · rw [h]
    exact EndsInEffect.error quiet _

theorem aluReg_effect {i : Instr} {oa : Operand} (hw : ∀ a, mayWriteReg i a = (oa == regByte a))
    (f : Byte → Byte) {s : State} (quiet : emitted i s = []) : EndsInEffect s i (aluReg f oa s) := by
  rcases aluReg_cases f oa s with ⟨a, rfl, h⟩ | ⟨-, h⟩
  · rw [h]
    exact EndsInEffect.ok (.writeReg 2 a _ quiet (by simp [hw]))
  · rw [h]
    exact EndsInEffect.error quiet _

theorem printReg_effect {i : Instr} {oa : Operand} {event : Byte → OutEvent} {s : State}
    (emits : ∀ a, oa = regByte a → emitted i s = [event (s.reg a)])
    (quiet : Operand.isReg oa = false → emitted i s = []) : EndsInEffect s i (printReg event oa s) := by
  rcases printReg_cases event oa s with ⟨a, rfl, h⟩ | ⟨hr, h⟩
  · rw [h]
    exact EndsInEffect.ok (.print _ (emits a rfl))
  · rw [h]
    exact EndsInEffect.error (quiet hr) _

theorem jumpReg_effect {i : Instr} (oa : Operand) {s : State} (quiet : emitted i s = []) :
    EndsInEffect s i (jumpReg oa s) := by
  rcases jumpReg_cases oa s with ⟨a, -, h⟩ | ⟨-, h⟩
  · rw [h]
    exact EndsInEffect.ok (.jump _ quiet)
  · rw [h]
    exact EndsInEffect.error quiet _

theorem branchReg_effect {i : Instr} (taken : Bool) (oa : Operand) {s : State} (quiet : emitted i s = []) :
    EndsInEffect s i (branchReg taken oa s) := by
  cases taken with
  | true => exact jumpReg_effect oa quiet
  | false => exact EndsInEffect.ok (.skip quiet)

/-! The operands and the pointer of a handler that went on. -/

theorem eq_regByte_of_regOperand {o : Operand} {a : RegIdx} (h : regOperand o = .ok a) : o = regByte a := by
  rcases regOperand_cases o with ⟨b, rfl, hb⟩ | ⟨-, he⟩
  · rw [Except.ok.inj (hb.symm.trans h)]
  · cases he.symm.trans h

theorem eq_regByte_of_regPair {oa ob : Operand} {p : RegIdx × RegIdx} (h : regPair oa ob = .ok p) :
    oa = regByte p.1 ∧ ob = regByte p.2 := by
  rcases regPair_cases oa ob with ⟨a, b, rfl, rfl, hab⟩ | ⟨-, he⟩
  · rw [← Except.ok.inj (hab.symm.trans h)]
    exact ⟨rfl, rfl⟩
  · cases he.symm.trans h

theorem eq_setSp_of_decrementSp {s t : State} (h : decrementSp s = .ok t) : ∃ p, t = s.setSp p := by
  rcases decrementSp_cases s with ⟨-, ht⟩ | ⟨-, he⟩
  · exact ⟨_, Except.ok.inj (h.symm.trans ht)⟩
  · cases he.symm.trans h

theorem execCmp_effect (oa ob : Operand) (s : State) :
    ∃ t, execCmp oa ob s = .next t ∧ Effect s (.cmp oa ob) t := by
  refine EndsInEffect.bind rfl fun p hp => ?_
  obtain ⟨rfl, rfl⟩ := eq_regByte_of_regPair hp
  exact EndsInEffect.ok (.compare p.1 p.2)

theorem execSt_effect (oa ob : Operand) (s : State) :
    ∃ t, execSt oa ob s = .next t ∧ Effect s (.st oa ob) t := by
  refine EndsInEffect.bind rfl fun p hp => ?_
  obtain ⟨rfl, rfl⟩ := eq_regByte_of_regPair hp
  exact EndsInEffect.ok (.store p.1 p.2)

theorem execPush_effect (oa : Operand) (s : State) :
    ∃ t, execPush oa s = .next t ∧ Effect s (.push oa) t := by
  refine EndsInEffect.bind rfl fun a ha => EndsInEffect.bind rfl fun t ht => ?_
  obtain rfl := eq_regByte_of_regOperand ha
  obtain ⟨p, rfl⟩ := eq_setSp_of_decrementSp ht
  rw [sp_setSp]
  exact EndsInEffect.ok (.push a p)

theorem execPop_effect (oa : Operand) (s : State) :
    ∃ t, execPop oa s = .next t ∧ Effect s (.pop oa) t := by
  refine EndsInEffect.bind rfl fun a ha => EndsInEffect.bind rfl fun p _ => ?_
  obtain rfl := eq_regByte_of_regOperand ha
  exact EndsInEffect.ok (.pop a p)

theorem execCall_effect (oa : Operand) (s : State) :
    ∃ t, execCall oa s = .next t ∧ Effect s (.call oa) t := by
  refine EndsInEffect.bind rfl fun a ha => EndsInEffect.bind rfl fun t ht =>
    EndsInEffect.bind rfl fun ret _ => ?_
  obtain rfl := eq_regByte_of_regOperand ha
  obtain ⟨p, rfl⟩ := eq_setSp_of_decrementSp ht
  rw [sp_setSp]
  exact EndsInEffect.ok (.call a p ret)

theorem execRet_effect (s : State) : ∃ t, execRet s = .next t ∧ Effect s .ret t :=
  EndsInEffect.bind rfl fun p _ => EndsInEffect.ok (.ret p)

/-- LDI is the register-immediate handler that keeps the immediate. -/
theorem execLdi_effect (oa oimm : Operand) (s : State) :
    ∃ t, execLdi oa oimm s = .next t ∧ Effect s (.ldi oa oimm) t :=
  aluRegImm_effect (fun _ => rfl) (fun _ v => v) oimm rfl

theorem execPrn_effect (oa : Operand) (s : State) :
    ∃ t, execPrn oa s = .next t ∧ Effect s (.prn oa) t :=
  printReg_effect (fun _ ha => by simp [ha, emitted])
    (fun h => by simp [emitted, regOperand_of_not_isReg _ h])

theorem execPra_effect (oa : Operand) (s : State) :
    ∃ t, execPra oa s = .next t ∧ Effect s (.pra oa) t :=
  printReg_effect (fun _ ha => by simp [ha, emitted])
    (fun h => by simp [emitted, regOperand_of_not_isReg _ h])

/-- Every instruction takes its step, to a state of one of the shapes of `Effect`. -/
theorem exec_effect (i : Instr) (s : State) : ∃ t, exec i s = .next t ∧ Effect s i t := by
  cases i with
  | hlt => exact EndsInEffect.ok .halt
  | ret => exact execRet_effect s
  | push a => exact execPush_effect a s
  | pop a => exact execPop_effect a s
  | prn a => exact execPrn_effect a s
  | pra a => exact execPra_effect a s
  | call a => exact execCall_effect a s
  | jmp a => exact jumpReg_effect a rfl
  | jeq a => exact branchReg_effect _ a rfl
  | jne a => exact branchReg_effect _ a rfl
  | not a => exact aluReg_effect (fun _ => rfl) _ rfl
  | ldi a imm => exact execLdi_effect a imm s
  | st a b => exact execSt_effect a b s
  | addi a imm => exact aluRegImm_effect (fun _ => rfl) _ imm rfl
  | cmp a b => exact execCmp_effect a b s
  | add a b | sub a b | mul a b | div a b | mod a b | and a b | or a b | xor a b | shl a b | shr a b =>
    exact aluRegReg_effect (fun _ => rfl) _ b rfl

theorem effect_of_exec {i : Instr} {s t : State} (h : exec i s = .next t) : Effect s i t := by
  obtain ⟨u, hu, he⟩ := exec_effect i s
  rw [hu] at h
  cases h
  exact he

/-! ### What one step and a run can do -/

/-- A step goes from Running only: an opcode byte without an instruction faults, and otherwise the
step is the meaning of the instruction decoded. -/
theorem stepWith_next {c : Config} {s t : State} (h : stepWith c s = .next t) :
    s.status = .running ∧
      ((∃ r, decodeLatched c (fetch s) = .error r ∧ t = raiseFault (rejectKind r) s) ∨
        ∃ i, decodeLatched c (fetch s) = .ok i ∧ exec i s = .next t) := by
  unfold stepWith at h
  cases hs : s.status with
  | halted => rw [hs] at h; cases h
  | faulted k => rw [hs] at h; cases h
  | running =>
    refine ⟨rfl, ?_⟩
    rw [hs] at h
    cases hd : decodeLatched c (fetch s) with
    | ok i => rw [hd] at h; exact .inr ⟨i, rfl, h⟩
    | error r => rw [hd] at h; cases h; exact .inl ⟨r, rfl, rfl⟩

theorem run_succ_next {M : Host.Core} {n : Nat} {s t : M.State} (h : M.run (n + 1) s = .next t) :
    ∃ u, M.step s = .next u ∧ M.run n u = .next t := by
  unfold Host.Core.run at h
  split at h
  next u hu => exact ⟨u, hu, h⟩
  next => cases h
  next => cases h

/-- The induction over a run, packaged: a reflexive relation that a step in front extends holds
between the two ends of every run. -/
theorem run_induction {R : State → State → Prop} (refl : ∀ s, R s s)
    (head : ∀ s u t, step s = .next u → R u t → R s t) (n : Nat) (s t : State)
    (h : Host.Core.run Sys2Proof.core n s = .next t) : R s t := by
  induction n generalizing s with
  | zero => cases h; exact refl t
  | succ n ih =>
    obtain ⟨u, hu, hr⟩ := run_succ_next h
    exact head s u t hu (ih u hr)

/-! ### The invariant -/

/-- The three outcomes of an unsigned comparison: E, G or L alone. -/
theorem compareFlags_cases (u v : Byte) :
    (u.toNat = v.toNat ∧ compareFlags u v = 1#8) ∨ (v.toNat < u.toNat ∧ compareFlags u v = 2#8) ∨
      (u.toNat < v.toNat ∧ compareFlags u v = 4#8) := by
  rcases Nat.lt_trichotomy u.toNat v.toNat with h | h | h
  · exact .inr (.inr ⟨h, by simp [compareFlags, Nat.ne_of_lt h, Nat.lt_asymm h]⟩)
  · exact .inl ⟨h, by simp [compareFlags, h]⟩
  · exact .inr (.inl ⟨h, by simp [compareFlags, h, Nat.ne_of_gt h]⟩)

theorem flagsLegal_compareFlags (u v : Byte) : flagsLegal (compareFlags u v) = true := by
  rcases compareFlags_cases u v with ⟨-, hc⟩ | ⟨-, hc⟩ | ⟨-, hc⟩ <;> simp [hc, flagsLegal]

/-- The invariant reads the memory and the flags only. -/
theorem State.Inv.congr {s t : State} (h : s.Inv) (hm : t.mem = s.mem) (hf : t.fl = s.fl) : t.Inv :=
  ⟨hm ▸ h.memory, hf ▸ h.flags⟩

theorem State.Inv.writeByte {s t : State} (h : s.Inv) (a v : Byte)
    (hm : t.mem = (s.writeByte a v).mem) (hf : t.fl = s.fl) : t.Inv :=
  ⟨hm ▸ writeByte_wf s a v h.memory, hf ▸ h.flags⟩

theorem Effect.inv {i : Instr} {s t : State} (h : Effect s i t) (hs : s.Inv) : t.Inv := by
  cases h with
  | compare a b => exact ⟨by simpa using hs.memory, by simp [flagsLegal_compareFlags]⟩
  | store a b => exact hs.writeByte (s.reg a) (s.reg b) (by simp) (by simp)
  | push a p => exact hs.writeByte p ((s.setSp p).reg a) (by simp) (by simp)
  | call a p ret => exact hs.writeByte p ret (by simp) (by simp)
  | _ => exact hs.congr (by simp) (by simp)

/-! ### Frames -/

theorem advance_status_ne_halted (n : Nat) {s : State} (h : s.status = .running) :
    (advance n s).status ≠ .halted := by
  rcases advance_cases n s with ⟨-, he⟩ | ⟨-, he⟩ <;> simp [he, h]

theorem Effect.eq_hlt_of_halted {i : Instr} {s t : State} (h : Effect s i t) (hs : s.status = .running)
    (ht : t.status = .halted) : i = .hlt := by
  cases h with
  | halt => rfl
  | fault => cases ht
  | call | ret | jump => cases hs.symm.trans ht
  | _ => exact absurd ht (advance_status_ne_halted _ hs)

theorem Effect.out {i : Instr} {s t : State} (h : Effect s i t) : t.out = s.out ++ emitted i s := by
  cases h with
  | fault _ quiet | writeReg _ _ _ quiet _ | jump _ quiet | skip quiet => simp [quiet]
  | print e emits => simp [emits]
  | _ => simp [emitted]

theorem Effect.fl {i : Instr} {s t : State} (h : Effect s i t) (hi : i.mnemonic ≠ .cmp) : t.fl = s.fl := by
  cases h with
  | compare a b => exact absurd rfl hi
  | _ => simp

theorem getElem_set_of_ne (x : Vector Byte 8) {a r : RegIdx} (v : Byte) (h : a ≠ r) : (x.set a v)[r] = x[r] :=
  Vector.getElem_set_ne _ _ (Fin.val_ne_of_ne h)

theorem Effect.frame {i : Instr} {s t : State} (h : Effect s i t) {r : RegIdx}
    (hr : mayWriteReg i r = false) : t.x[r] = s.x[r] := by
  cases h with
  | writeReg n a v quiet writes =>
    have ha : a ≠ r := by rintro rfl; simp [hr] at writes
    simpa using getElem_set_of_ne s.x v ha
  | push a p | call a p ret | ret p =>
    have h7 : spIdx ≠ r := by rintro rfl; simp [mayWriteReg, spIdx] at hr
    simpa using getElem_set_of_ne s.x p h7
  | pop a p =>
    obtain ⟨ha, h7⟩ : a ≠ r ∧ spIdx ≠ r := by
      constructor <;> rintro rfl <;> simp [mayWriteReg, spIdx] at hr
    simpa [getElem_set_of_ne _ p h7] using getElem_set_of_ne s.x _ ha
  | _ => simp

/-! ### HLT is the byte 0x01 -/

theorem mem_of_lookup_eq_some {l : List (Byte × Mnemonic)} {v : Byte} {m : Mnemonic} (h : l.lookup v = some m) :
    (v, m) ∈ l := by
  obtain ⟨l₁, l₂, rfl, -⟩ := List.lookup_eq_some_iff.mp h
  simp

theorem lookupOpcode_eq_hlt {v : Byte} (h : lookupOpcode specConfig v = .ok .hlt) : v = 0x01#8 := by
  have only : ∀ r ∈ specOpcodeMap, r.2 = .hlt → r.1 = 0x01#8 := by decide
  cases hl : specOpcodeMap.lookup v with
  | none => simp [lookupOpcode, specConfig, hl] at h
  | some m =>
    obtain rfl : m = .hlt := by simpa [lookupOpcode, specConfig, hl] using h
    exact only _ (mem_of_lookup_eq_some hl) rfl

theorem build_eq_hlt {m : Mnemonic} {a b : Operand} (h : m.build a b = .hlt) : m = .hlt := by
  cases m with
  | hlt => rfl
  | _ => cases h

theorem decodeLatched_eq_hlt_iff (f : Latched) :
    decodeLatched specConfig f = .ok .hlt ↔ f.ir = 0x01#8 := by
  constructor
  · intro h
    unfold decodeLatched at h
    split at h
    next m hm =>
      obtain rfl := build_eq_hlt (Except.ok.inj h)
      exact lookupOpcode_eq_hlt hm
    next => cases h
  · intro h
    unfold decodeLatched
    rw [h]
    rfl

theorem exec_hlt (s : State) : exec .hlt s = .next s.halt := rfl

/-! ### What the flags reach -/

/-- The flags the handler starts with change nothing of what it does, and it hands them on. -/
def FlagBlind (h : State → Except FaultKind State) : Prop :=
  ∀ (s : State) (f : Byte), h (s.setFl f) = (h s).map (·.setFl f)

theorem FlagBlind.pure {g : State → State} (hg : ∀ s f, g (s.setFl f) = (g s).setFl f) :
    FlagBlind (fun s => .ok (g s)) := fun s f => congrArg Except.ok (hg s f)

/-- A value computed without the flags, and then a handler for each value. -/
theorem FlagBlind.bind {α : Type} {x : State → Except FaultKind α} {h : α → State → Except FaultKind State}
    (hx : ∀ s f, x (s.setFl f) = x s) (hh : ∀ v, FlagBlind (h v)) : FlagBlind (fun s => x s >>= fun v => h v s) := by
  intro s f
  simp only [hx]
  cases x s with
  | ok v => exact hh v s f
  | error k => rfl

/-- A state computed from the first, and then a handler on both. -/
theorem FlagBlind.andThen {x : State → Except FaultKind State} {h : State → State → Except FaultKind State}
    (hx : FlagBlind x) (hh : ∀ s t f, h (s.setFl f) (t.setFl f) = (h s t).map (·.setFl f)) :
    FlagBlind (fun s => x s >>= fun t => h s t) := by
  intro s f
  simp only [hx s f]
  cases x s with
  | ok t => exact hh s t f
  | error k => rfl

theorem FlagBlind.settle {h : State → Except FaultKind State} (hh : FlagBlind h) (s : State) (f : Byte) :
    Machine.settle (s.setFl f) (h (s.setFl f)) = mapNext (·.setFl f) (Machine.settle s (h s)) := by
  rw [hh s f]
  cases h s <;> rfl

theorem advance_setFl (n : Nat) (s : State) (f : Byte) : advance n (s.setFl f) = (advance n s).setFl f := by
  rcases advance_cases n s with ⟨hle, h⟩ | ⟨hgt, h⟩
  · rw [h]
    exact advance_of_le n (s.setFl f) hle
  · rw [h]
    exact advance_of_gt n (s.setFl f) hgt

theorem FlagBlind.advance {g : State → State} (n : Nat) (hg : ∀ s f, g (s.setFl f) = (g s).setFl f) :
    FlagBlind (fun s => .ok (Machine.advance n (g s))) :=
  .pure fun s f => by rw [hg, advance_setFl]

theorem flagBlind_aluRegReg (g : Byte → Byte → Except FaultKind Byte) (oa ob : Operand) :
    FlagBlind (aluRegReg g oa ob) :=
  .bind (fun _ _ => rfl) fun (a, _) => .bind (fun _ _ => rfl) fun r =>
    .advance (g := fun s => s.setReg a r) 3 fun _ _ => rfl

theorem flagBlind_aluRegImm (g : Byte → Byte → Byte) (oa oimm : Operand) : FlagBlind (aluRegImm g oa oimm) :=
  .bind (fun _ _ => rfl) fun a => .bind (fun _ _ => rfl) fun v =>
    .advance (g := fun s => s.setReg a (g (s.reg a) v)) 3 fun _ _ => rfl

theorem flagBlind_aluReg (g : Byte → Byte) (oa : Operand) : FlagBlind (aluReg g oa) :=
  .bind (fun _ _ => rfl) fun a => .advance (g := fun s => s.setReg a (g (s.reg a))) 2 fun _ _ => rfl

theorem flagBlind_printReg (event : Byte → OutEvent) (oa : Operand) : FlagBlind (printReg event oa) :=
  .bind (fun _ _ => rfl) fun a => .advance (g := fun s => s.emit (event (s.reg a))) 2 fun _ _ => rfl

theorem flagBlind_jumpReg (oa : Operand) : FlagBlind (jumpReg oa) :=
  .bind (fun _ _ => rfl) fun a => .pure (g := fun s => s.setPc (s.reg a)) fun _ _ => rfl

theorem flagBlind_branchReg (taken : Bool) (oa : Operand) : FlagBlind (branchReg taken oa) := by
  cases taken with
  | true => exact flagBlind_jumpReg oa
  | false => exact .advance (g := id) 2 fun _ _ => rfl

theorem flagBlind_decrementSp : FlagBlind decrementSp :=
  .bind (fun _ _ => rfl) fun p => .pure (g := fun s => s.setSp p) fun _ _ => rfl

theorem execRet_setFl (s : State) (f : Byte) : execRet (s.setFl f) = mapNext (·.setFl f) (execRet s) :=
  (FlagBlind.bind (x := fun s => addrPlus s.sp 1) (fun _ _ => rfl) fun p =>
    .pure (g := fun s => (s.setPc (s.readByte s.sp)).setSp p) fun _ _ => rfl).settle s f

theorem execSt_setFl (oa ob : Operand) (s : State) (f : Byte) :
    execSt oa ob (s.setFl f) = mapNext (·.setFl f) (execSt oa ob s) :=
  (FlagBlind.bind (x := fun _ => regPair oa ob) (fun _ _ => rfl) fun p =>
    .advance (g := fun s => s.writeByte (s.reg p.1) (s.reg p.2)) 3 fun _ _ => rfl).settle s f

theorem execPush_setFl (oa : Operand) (s : State) (f : Byte) :
    execPush oa (s.setFl f) = mapNext (·.setFl f) (execPush oa s) :=
  (FlagBlind.bind (x := fun _ => regOperand oa) (fun _ _ => rfl) fun a =>
    .andThen (h := fun _ t => .ok (advance 2 (t.writeByte t.sp (t.reg a)))) flagBlind_decrementSp
      fun _ => FlagBlind.advance (g := fun t => t.writeByte t.sp (t.reg a)) 2 fun _ _ => rfl).settle s f

theorem execPop_setFl (oa : Operand) (s : State) (f : Byte) :
    execPop oa (s.setFl f) = mapNext (·.setFl f) (execPop oa s) :=
  (FlagBlind.bind (x := fun _ => regOperand oa) (fun _ _ => rfl) fun a =>
    .bind (x := fun s => addrPlus (s.setReg a (s.readByte s.sp)).sp 1) (fun _ _ => rfl) fun p =>
      .advance (g := fun s => (s.setReg a (s.readByte s.sp)).setSp p) 2 fun _ _ => rfl).settle s f

theorem execCall_setFl (oa : Operand) (s : State) (f : Byte) :
    execCall oa (s.setFl f) = mapNext (·.setFl f) (execCall oa s) :=
  (FlagBlind.bind (x := fun _ => regOperand oa) (fun _ _ => rfl) fun a =>
    .andThen (h := fun s t => addrPlus s.pc 2 >>= fun ret => .ok ((t.writeByte t.sp ret).setPc (t.reg a)))
      flagBlind_decrementSp fun s => FlagBlind.bind (x := fun _ => addrPlus s.pc 2) (fun _ _ => rfl) fun ret =>
        .pure (g := fun t => (t.writeByte t.sp ret).setPc (t.reg a)) fun _ _ => rfl).settle s f

/-- What an instruction other than CMP does depends on the flags through bit 0 only, and through that
only for JEQ and JNE; and it hands the flags on. -/
theorem exec_setFl {i : Instr} (hi : i.mnemonic ≠ .cmp) (s : State) (f : Byte)
    (hf : i.mnemonic = .jeq ∨ i.mnemonic = .jne → flagE f = flagE s.fl) :
    exec i (s.setFl f) = mapNext (·.setFl f) (exec i s) := by
  cases i with
  | hlt => rfl
  | ret => exact execRet_setFl s f
  | push a => exact execPush_setFl a s f
  | pop a => exact execPop_setFl a s f
  | prn a | pra a => exact (flagBlind_printReg _ a).settle s f
  | call a => exact execCall_setFl a s f
  | jmp a => exact (flagBlind_jumpReg a).settle s f
  | jeq a =>
    show settle _ (branchReg (flagE f) a _) = _
    rw [hf (.inl rfl)]
    exact (flagBlind_branchReg _ a).settle s f
  | jne a =>
    show settle _ (branchReg (!flagE f) a _) = _
    rw [hf (.inr rfl)]
    exact (flagBlind_branchReg _ a).settle s f
  | not a => exact (flagBlind_aluReg _ a).settle s f
  | ldi a imm => exact (flagBlind_aluRegImm (fun _ v => v) a imm).settle s f
  | st a b => exact execSt_setFl a b s f
  | addi a imm => exact (flagBlind_aluRegImm _ a imm).settle s f
  | cmp a b => exact absurd rfl hi
  | add a b | sub a b | mul a b | div a b | mod a b | and a b | or a b | xor a b | shl a b | shr a b =>
    exact (flagBlind_aluRegReg _ a b).settle s f

theorem exec_cmp (a b : RegIdx) (s : State) : exec (.cmp (regByte a) (regByte b)) s =
    .next (advance 3 (s.setFl (compareFlags (s.reg a) (s.reg b)))) := by
  simp [exec, execCmp, bind, Except.bind, pure, Except.pure]

/-! ### The flags CMP leaves -/

theorem getLsbD_eq_false_of_lt_eight {fl : Byte} (h : fl.toNat < 2 ^ 3) (j : Nat) (hj : 3 ≤ j) :
    fl.getLsbD j = false :=
  Nat.testBit_lt_two_pow (Nat.lt_of_lt_of_le h (Nat.pow_le_pow_right (by decide) hj))

/-- The value a comparison leaves, read bit by bit. -/
theorem compareFlags_spec (u v : Byte) :
    ((compareFlags u v).getLsbD 0 = true ↔ u.toNat = v.toNat) ∧
    ((compareFlags u v).getLsbD 1 = true ↔ v.toNat < u.toNat) ∧
    ((compareFlags u v).getLsbD 2 = true ↔ u.toNat < v.toNat) ∧
    (∀ j : Nat, 3 ≤ j → (compareFlags u v).getLsbD j = false) ∧
    (compareFlags u v = 1#8 ∨ compareFlags u v = 2#8 ∨ compareFlags u v = 4#8) := by
  rcases compareFlags_cases u v with ⟨h, hc⟩ | ⟨h, hc⟩ | ⟨h, hc⟩ <;> rw [hc] <;>
    exact ⟨by simp; omega, by simp; omega, by simp; omega,
      getLsbD_eq_false_of_lt_eight (by decide), by simp⟩

/-! ### Canonical memories -/

theorem wfFrom_cons {lo k : Nat} {v : Byte} {r : Memory} : Memory.wfFrom lo ((k, v) :: r) = true ↔
    lo ≤ k ∧ k < 256 ∧ v ≠ Memory.unlisted ∧ Memory.wfFrom (k + 1) r = true := by
  simp [Memory.wfFrom, and_assoc]

theorem wfFrom_head {lo k : Nat} {v : Byte} {r : Memory} (hw : Memory.wfFrom lo ((k, v) :: r) = true) :
    Memory.wfFrom k ((k, v) :: r) = true :=
  wfFrom_cons.mpr ⟨Nat.le_refl k, (wfFrom_cons.mp hw).2⟩

@[simp] theorem byteAt_cons_same (k : Nat) (v : Byte) (r : Memory) : Memory.byteAt ((k, v) :: r) k = v := by
  simp [Memory.byteAt]

theorem byteAt_cons_ne {k n : Nat} (v : Byte) (r : Memory) (h : k ≠ n) :
    Memory.byteAt ((k, v) :: r) n = Memory.byteAt r n := by
  simp [Memory.byteAt, h]

/-- Below its first address a canonical list has no entry. -/
theorem byteAt_of_lt_wfFrom {lo n : Nat} {m : Memory} (hw : Memory.wfFrom lo m = true) (hn : n < lo) :
    Memory.byteAt m n = Memory.unlisted := by
  induction m generalizing lo with
  | nil => rfl
  | cons e r ih =>
    obtain ⟨k, v⟩ := e
    obtain ⟨hlo, -, -, hr⟩ := wfFrom_cons.mp hw
    rw [byteAt_cons_ne v r (by omega)]
    exact ih hr (by omega)

/-- A canonical list with the same cells as one whose first entry is at `k` starts no higher than `k`:
otherwise it would read there as a cell with no entry. -/
theorem le_head_of_byteAt_eq {lo lo' k : Nat} {v : Byte} {r m : Memory}
    (hw : Memory.wfFrom lo ((k, v) :: r) = true) (hm : Memory.wfFrom lo' m = true)
    (heq : ∀ n < 256, Memory.byteAt ((k, v) :: r) n = Memory.byteAt m n) : lo' ≤ k := by
  obtain ⟨-, hk, hv, -⟩ := wfFrom_cons.mp hw
  refine Nat.not_lt.mp fun hlt => hv ?_
  rw [← byteAt_cons_same k v r, heq k hk, byteAt_of_lt_wfFrom hm hlt]

/-- Canonical lists with the same 256 cells are equal. -/
theorem eq_of_byteAt_eq {lo : Nat} {m m' : Memory} (hw : Memory.wfFrom lo m = true)
    (hw' : Memory.wfFrom lo m' = true)
    (heq : ∀ n < 256, Memory.byteAt m n = Memory.byteAt m' n) : m = m' := by
  induction m generalizing lo m' with
  | nil =>
    cases m' with
    | nil => rfl
    | cons e' r' =>
      have h256 : 256 ≤ e'.1 := le_head_of_byteAt_eq hw' (m := []) rfl fun n hn => (heq n hn).symm
      exact absurd (wfFrom_cons.mp hw').2.1 (Nat.not_lt.mpr h256)
  | cons e r ih =>
    obtain ⟨k, v⟩ := e
    obtain ⟨-, hk, hv, hr⟩ := wfFrom_cons.mp hw
    cases m' with
    | nil => exact absurd (heq k hk) (by simpa [Memory.byteAt] using hv)
    | cons e' r' =>
      obtain ⟨k', v'⟩ := e'
      obtain ⟨-, -, -, hr'⟩ := wfFrom_cons.mp hw'
      obtain rfl : k = k' := Nat.le_antisymm
        (le_head_of_byteAt_eq hw' (wfFrom_head hw) fun n hn => (heq n hn).symm)
        (le_head_of_byteAt_eq hw (wfFrom_head hw') heq)
      obtain rfl : v = v' := by simpa using heq k hk
      have tails : ∀ n < 256, Memory.byteAt r n = Memory.byteAt r' n := by
        intro n hn
        by_cases hkn : k = n
        · have hlt : n < k + 1 := by omega
          rw [byteAt_of_lt_wfFrom hr hlt, byteAt_of_lt_wfFrom hr' hlt]
        · simpa [byteAt_cons_ne, hkn] using heq n hn
      rw [ih hr hr' tails]

end Sys2Proof.Machine

namespace Sys2Proof.Proofs

open Sys2Proof.Machine Sys2Proof.Claim

/-- Settles O8: a case split over the shapes of `Effect`, of which three store a byte and one writes
the flags. -/
theorem stepKeepsInvariant : Obligations.StepKeepsInvariant := by
  intro c s t hs h
  obtain ⟨-, ⟨r, -, rfl⟩ | ⟨i, -, he⟩⟩ := stepWith_next h
  · exact hs.congr rfl rfl
  · exact (effect_of_exec he).inv hs

/-- Settles O6: `eq_of_byteAt_eq` from address 0 on. -/
theorem equalCellsAreEqualMemories : Obligations.EqualCellsAreEqualMemories :=
  fun _ _ hw hw' heq => eq_of_byteAt_eq hw hw' heq

/-- Settles O9: O8, by induction over the run. -/
theorem runKeepsInvariant : Obligations.RunKeepsInvariant := by
  intro n s t hs h
  exact run_induction (R := fun s t => s.Inv → t.Inv) (fun _ => id)
    (fun s u _ hu hr hs => hr (stepKeepsInvariant specConfig s u hs hu)) n s t h hs

/-- Settles O24: the byte 0x01 alone decodes to HLT, and no other shape of `Effect` is Halted. -/
theorem onlyHltHalts : Obligations.OnlyHltHalts := by
  intro s t h
  obtain ⟨hs, hcase⟩ := stepWith_next h
  refine ⟨hs, Iff.trans ?_ (decodeLatched_eq_hlt_iff (fetch s))⟩
  rcases hcase with ⟨r, hd, rfl⟩ | ⟨i, hd, he⟩
  · simp [hd]
  · constructor
    · intro ht
      rw [hd, (effect_of_exec he).eq_hlt_of_halted hs ht]
    · intro hhlt
      obtain rfl : i = .hlt := Except.ok.inj (hd.symm.trans hhlt)
      cases (exec_hlt s).symm.trans he
      rfl

/-- Settles O28: a case split over the shapes of `Effect`. -/
theorem registerFrame : Obligations.RegisterFrame :=
  fun _ _ _ _ h hr => (effect_of_exec h).frame hr

/-- Settles O31: every handler but CMP's is blind to the flags once the branch is decided, and CMP
writes all eight bits. -/
theorem flagsReachOnlyBranches : Obligations.FlagsReachOnlyBranches := by
  refine ⟨fun i s f hi hf => exec_setFl hi s f hf, fun a b s f => ?_⟩
  rw [exec_cmp, exec_cmp]
  rfl

/-- Settles O32: a case split over the shapes of `Effect`. -/
theorem outputFrame : Obligations.OutputFrame := fun _ _ _ h => (effect_of_exec h).out

/-- Settles O33: a step appends what its instruction emits, or nothing; by induction over the run. -/
theorem outputOnlyGrows : Obligations.OutputOnlyGrows := by
  refine run_induction (R := fun s t => s.out <+: t.out) (fun s => List.prefix_refl s.out) ?_
  intro s u t hstep hr
  have hsu : s.out <+: u.out := by
    obtain ⟨-, ⟨r, -, rfl⟩ | ⟨i, -, he⟩⟩ := stepWith_next hstep
    · exact List.prefix_refl s.out
    · rw [outputFrame i s u he]
      exact List.prefix_append _ _
  exact hsu.trans hr

/-- Settles O51: the three outcomes of the comparison, and the flag frame of `Effect`. -/
theorem comparisonSetsExactlyOneFlag : Obligations.ComparisonSetsExactlyOneFlag := by
  refine ⟨fun a b s t h => ?_, fun i s t hi h => (effect_of_exec h).fl hi⟩
  have hfl : t.fl = compareFlags (s.reg a) (s.reg b) := by
    cases (exec_cmp a b s).symm.trans h
    simp
  rw [hfl, ← reg_eq, ← reg_eq]
  exact compareFlags_spec _ _

/-- Settles O2: the reset state, field by field. -/
theorem resetTable : Obligations.ResetTable :=
  ⟨by decide, rfl, rfl, rfl, rfl, fun _ => rfl⟩

/-- Settles O4, by the read-after-write law of the register file. -/
theorem registerFileReadWrite : Obligations.RegisterFileReadWrite := by
  refine ⟨fun s i j v => ?_, fun s i v => ⟨rfl, rfl, rfl, rfl, rfl⟩, fun v hv => ?_⟩
  · rw [reg_setReg]
    simp only [eq_comm]
  · exact dif_neg (Nat.not_le.mpr hv)

/-- Settles O7: a load keeps the canonical form and touches no flag. -/
theorem startMeetsInvariant : Obligations.StartMeetsInvariant :=
  ⟨⟨reset_mem_wf, rfl⟩, fun image => ⟨load_wf image 0 _ reset_mem_wf, rfl⟩⟩

/-- Settles O21, by the two cases of the advance. -/
theorem advanceNeverWraps : Obligations.AdvanceNeverWraps := by
  refine fun n s => ⟨fun h => ?_, fun h => advance_of_gt n s h⟩
  rw [advance_of_le n s h]
  exact ⟨rfl, Nat.mod_eq_of_lt (Nat.lt_succ_of_le h)⟩

end Sys2Proof.Proofs
end

/-! SUPPORT and PROOFS for memory (spec/20_memory.md): what the three instructions that store do, what
a fetch gives after a store, and the statements of that family. -/

section

namespace Sys2Proof.Machine

open Sys2Proof.Claim

/-! ### Reading and fetching after a write -/

theorem readByte_writeByte (s : State) (a v b : Byte) :
    (s.writeByte a v).readByte b = if b = a then v else s.readByte b := by
  simp only [State.readByte, writeByte_mem, byteAt_setByte, BitVec.toNat_inj]

/-- An operand byte fetched after a write, from wherever the program counter points by then. -/
theorem fetchOperand_writeByte (s : State) (a v p : Byte) (k : Nat) :
    fetchOperand { s.writeByte a v with pc := p } k =
      if p.toNat + k = a.toNat then some v else fetchOperand { s with pc := p } k := by
  have ha : a.toNat ≤ 255 := Nat.le_of_lt_succ a.isLt
  unfold fetchOperand
  by_cases hk : p.toNat + k = a.toNat
  · simp [hk, ha]
  · simp [hk, byteAt_setByte_ne]

/-! ### The instructions that store -/

theorem exec_st (a b : RegIdx) (s : State) : exec (.st (regByte a) (regByte b)) s =
    .next (advance 3 (s.writeByte (s.reg a) (s.reg b))) := by
  simp [exec, execSt, bind, Except.bind, pure, Except.pure]

theorem exec_st_of_not_isReg {oa ob : Operand} (h : Operand.isReg oa = false ∨ Operand.isReg ob = false)
    (s : State) : exec (.st oa ob) s = .next (raiseFault .outOfRangeAddress s) := by
  simp [exec, execSt, regPair_of_not_isReg _ _ h, bind, Except.bind]

theorem exec_push (a : RegIdx) {s t : State} (ht : decrementSp s = .ok t) :
    exec (.push (regByte a)) s = .next (advance 2 (t.writeByte t.sp (t.reg a))) := by
  simp [exec, execPush, ht, bind, Except.bind, pure, Except.pure]

theorem exec_push_of_not_isReg {oa : Operand} (h : Operand.isReg oa = false) (s : State) :
    exec (.push oa) s = .next (raiseFault .outOfRangeAddress s) := by
  simp [exec, execPush, regOperand_of_not_isReg _ h, bind, Except.bind]

theorem exec_push_of_decrementSp_error (a : RegIdx) {s : State} {k : FaultKind}
    (hk : decrementSp s = .error k) : exec (.push (regByte a)) s = .next (raiseFault k s) := by
  simp [exec, execPush, hk, bind, Except.bind]

theorem exec_call (a : RegIdx) {s t : State} {ret : Byte} (ht : decrementSp s = .ok t)
    (hret : addrPlus s.pc 2 = .ok ret) :
    exec (.call (regByte a)) s = .next ((t.writeByte t.sp ret).setPc (t.reg a)) := by
  simp [exec, execCall, ht, hret, bind, Except.bind, pure, Except.pure]

theorem exec_call_of_not_isReg {oa : Operand} (h : Operand.isReg oa = false) (s : State) :
    exec (.call oa) s = .next (raiseFault .outOfRangeAddress s) := by
  simp [exec, execCall, regOperand_of_not_isReg _ h, bind, Except.bind]

theorem exec_call_of_decrementSp_error (a : RegIdx) {s : State} {k : FaultKind}
    (hk : decrementSp s = .error k) : exec (.call (regByte a)) s = .next (raiseFault k s) := by
  simp [exec, execCall, hk, bind, Except.bind]

theorem exec_call_of_addrPlus_error (a : RegIdx) {s t : State} {k : FaultKind} (ht : decrementSp s = .ok t)
    (hk : addrPlus s.pc 2 = .error k) : exec (.call (regByte a)) s = .next (raiseFault k s) := by
  simp [exec, execCall, ht, hk, bind, Except.bind]

/-! ### The memory an instruction leaves -/

/-- The memory after the store that `storedCell` answers. -/
def Memory.afterStore (m : Memory) (cell : Option (Byte × Byte)) : Memory :=
  match cell with
  | some (p, v) => Memory.setByte m p.toNat v
  | none => m

theorem decrementSp_mem {s t : State} (h : decrementSp s = .ok t) : t.mem = s.mem := by
  obtain ⟨p, rfl⟩ := eq_setSp_of_decrementSp h
  rfl

theorem exec_st_mem {oa ob : Operand} {s t : State} (h : exec (.st oa ob) s = .next t) :
    t.mem = Memory.afterStore s.mem (storedCell (.st oa ob) s) := by
  rcases regPair_cases oa ob with ⟨a, b, rfl, rfl, -⟩ | ⟨hr, he⟩
  · cases (exec_st a b s).symm.trans h
    simp [storedCell, Memory.afterStore]
  · cases (exec_st_of_not_isReg hr s).symm.trans h
    simp [storedCell, he, Memory.afterStore]

theorem exec_push_mem {oa : Operand} {s t : State} (h : exec (.push oa) s = .next t) :
    t.mem = Memory.afterStore s.mem (storedCell (.push oa) s) := by
  rcases regOperand_cases oa with ⟨a, rfl, -⟩ | ⟨hr, he⟩
  · cases hd : decrementSp s with
    | ok u =>
      cases (exec_push a hd).symm.trans h
      simp [storedCell, hd, Memory.afterStore, decrementSp_mem hd]
    | error k =>
      cases (exec_push_of_decrementSp_error a hd).symm.trans h
      simp [storedCell, hd, Memory.afterStore]
  · cases (exec_push_of_not_isReg hr s).symm.trans h
    simp [storedCell, he, Memory.afterStore]

theorem exec_call_mem {oa : Operand} {s t : State} (h : exec (.call oa) s = .next t) :
    t.mem = Memory.afterStore s.mem (storedCell (.call oa) s) := by
  rcases regOperand_cases oa with ⟨a, rfl, -⟩ | ⟨hr, he⟩
  · cases hd : decrementSp s with
    | ok u =>
      cases hp : addrPlus s.pc 2 with
      | ok ret =>
        cases (exec_call a hd hp).symm.trans h
        simp [storedCell, hd, hp, Memory.afterStore, decrementSp_mem hd]
      | error k =>
        cases (exec_call_of_addrPlus_error a hd hp).symm.trans h
        simp [storedCell, hd, hp, Memory.afterStore]
    | error k =>
      cases (exec_call_of_decrementSp_error a hd).symm.trans h
      simp [storedCell, hd, Memory.afterStore]
  · cases (exec_call_of_not_isReg hr s).symm.trans h
    simp [storedCell, he, Memory.afterStore]

theorem Effect.mem_of_no_store {i : Instr} {s t : State} (h : Effect s i t) (hst : i.mnemonic ≠ .st)
    (hpush : i.mnemonic ≠ .push) (hcall : i.mnemonic ≠ .call) : t.mem = s.mem := by
  cases h with
  | store => exact absurd rfl hst
  | push => exact absurd rfl hpush
  | call => exact absurd rfl hcall
  | _ => simp

/-- The table of R35, for every instruction: the memory with the cell of `storedCell` written, if any. -/
theorem exec_mem {i : Instr} {s t : State} (h : exec i s = .next t) :
    t.mem = Memory.afterStore s.mem (storedCell i s) := by
  cases i with
  | st a b => exact exec_st_mem h
  | push a => exact exec_push_mem h
  | call a => exact exec_call_mem h
  | _ => exact (effect_of_exec h).mem_of_no_store nofun nofun nofun

/-! ### The step of a decoded instruction -/

theorem decodeLatched_of_lookupOpcode {c : Config} {f : Latched} {m : Mnemonic}
    (h : lookupOpcode c f.ir = .ok m) : decodeLatched c f = .ok (m.build f.opa f.opb) := by
  simp [decodeLatched, h]

theorem stepWith_of_decodeLatched {c : Config} {s : State} {i : Instr} (hs : s.status = .running)
    (h : decodeLatched c (fetch s) = .ok i) : stepWith c s = exec i s := by
  simp [stepWith, hs, h]

end Sys2Proof.Machine

namespace Sys2Proof.Proofs

open Sys2Proof.Machine Sys2Proof.Claim

/-- Settles O29: `exec_mem`, read cell by cell. -/
theorem memoryFrame : Obligations.MemoryFrame := by
  intro i s t h n
  rw [exec_mem h]
  cases storedCell i s with
  | some c => exact byteAt_setByte s.mem c.1.toNat n c.2
  | none => rfl

/-- Settles O16: a fetch after a store is a read after a write, and the step of an ST runs on the
operands latched before it stores. -/
theorem storesAreSeenByTheNextFetchOnly : Obligations.StoresAreSeenByTheNextFetchOnly := by
  refine ⟨readByte_writeByte, fun s a v p => fetchOperand_writeByte s a v p 1,
    fun s a v p => fetchOperand_writeByte s a v p 2, fun s a b hs hpc hst ha hb => ?_⟩
  have hopa : (fetch s).opa = regByte a := (fetchOperand_of_le s 1 (by omega)).trans ha
  have hopb : (fetch s).opb = regByte b := (fetchOperand_of_le s 2 (by omega)).trans hb
  calc step s
    _ = exec (.st (fetch s).opa (fetch s).opb) s :=
      stepWith_of_decodeLatched hs (decodeLatched_of_lookupOpcode (m := .st) hst)
    _ = .next (advance 3 (s.writeByte (s.reg a) (s.reg b))) := by rw [hopa, hopb, exec_st]
    _ = .next ((s.writeByte (s.reg a) (s.reg b)).setPc (toByte (s.pc.toNat + 3))) :=
      congrArg _ (advance_of_le 3 _ (Nat.add_le_add_right hpc 3))

/-- Settles O5, by the read-after-write law of memory. -/
theorem memoryReadWrite : Obligations.MemoryReadWrite :=
  fun s a v => ⟨readByte_writeByte s a v, rfl, rfl, rfl, rfl, rfl⟩

end Sys2Proof.Proofs
end

/-! SUPPORT and PROOFS for the encoding (spec/30_encoding.md): what the mapping, the decoder and the
encoder answer under admissible parameters, how far an instruction advances `pc`, and the statements
of that family. -/

section

namespace Sys2Proof

open Sys2Proof.Machine

/-! ### The mapping under admissible parameters -/

/-- What `Config.admissible` checks, one name per check. -/
structure Config.Lawful (c : Config) : Prop where
  bytes_nodup : (c.opcodeMap.map Prod.fst).Nodup
  mnemonics_nodup : (c.opcodeMap.map Prod.snd).Nodup
  mapped (m : Mnemonic) : ∃ op, (op, m) ∈ c.opcodeMap
  controlBits {op : Byte} {m : Mnemonic} (h : (op, m) ∈ c.opcodeMap) :
    opNops op = m.format.nops ∧ opAlu op = m.isAlu ∧ opSetsPc op = m.setsPc
  not_routed {op : Byte} {m : Mnemonic} (h : (op, m) ∈ c.opcodeMap) : op ∉ c.aluRoutedUnimplemented

theorem Mnemonic.mem_all (m : Mnemonic) : m ∈ Mnemonic.all := by
  cases m <;> decide

theorem Config.lawful_of_admissible {c : Config} (h : c.admissible = true) : c.Lawful := by
  simp only [Config.admissible, Bool.and_eq_true, decide_eq_true_eq, List.all_eq_true, beq_iff_eq,
    List.contains_iff_mem, Bool.not_eq_true'] at h
  obtain ⟨⟨⟨⟨hbytes, hmnemonics⟩, hmapped⟩, hbits⟩, hrouted⟩ := h
  refine ⟨hbytes, hmnemonics, fun m => ?_, fun {op m} hm => ?_, fun {op m} hm hr => ?_⟩
  · simpa using hmapped m m.mem_all
  · obtain ⟨⟨hnops, halu⟩, hsets⟩ := hbits _ hm
    exact ⟨hnops, halu, hsets⟩
  · have hunmapped := (hrouted op hr).2
    simp [List.contains_eq_mem, List.mem_map_of_mem (f := Prod.fst) hm] at hunmapped

/-- Two rows that agree in a column without repetitions are one row (Mathlib's `List.inj_on_of_nodup_map`,
which the files of this package do not import). -/
theorem eq_of_nodup_map {α β : Type} {f : α → β} {l : List α} (hl : (l.map f).Nodup) {x y : α}
    (hx : x ∈ l) (hy : y ∈ l) (hxy : f x = f y) : x = y := by
  induction l with
  | nil => cases hx
  | cons r l ih =>
    obtain ⟨hr, hl⟩ := List.nodup_cons.mp hl
    cases hx with
    | head =>
      cases hy with
      | head => rfl
      | tail _ hy => exact absurd (hxy ▸ List.mem_map_of_mem hy) hr
    | tail _ hx =>
      cases hy with
      | head => exact absurd (hxy ▸ List.mem_map_of_mem hx) hr
      | tail _ hy => exact ih hl hx hy

/-- The dispatch lookup answers exactly the rows of the mapping: no byte has two rows, and no row's
byte is routed elsewhere. -/
theorem lookupOpcode_eq_ok_iff {c : Config} (hc : c.Lawful) {op : Byte} {m : Mnemonic} :
    lookupOpcode c op = .ok m ↔ (op, m) ∈ c.opcodeMap := by
  constructor
  · intro h
    unfold lookupOpcode at h
    split at h
    next => cases h
    next =>
      split at h
      next m' hl =>
        cases h
        exact mem_of_lookup_eq_some hl
      next => cases h
  · intro h
    have hl : c.opcodeMap.lookup op = some m := by
      cases hl : c.opcodeMap.lookup op with
      | none => simpa using List.lookup_eq_none_iff.mp hl _ h
      | some m' =>
        have hrow := eq_of_nodup_map hc.bytes_nodup h (mem_of_lookup_eq_some hl) rfl
        rw [(Prod.mk.inj hrow).2]
    simp [lookupOpcode, hc.not_routed h, hl]

/-- The encoder's opcode byte is the one of the mnemonic's row: no mnemonic has two rows. -/
theorem opcodeOf_of_mem {c : Config} (hc : c.Lawful) {op : Byte} {m : Mnemonic}
    (h : (op, m) ∈ c.opcodeMap) : opcodeOf c m = some op := by
  unfold opcodeOf
  cases hf : c.opcodeMap.find? (fun r => r.2 == m) with
  | none => simpa using List.find?_eq_none.mp hf _ h
  | some r =>
    have hr : r.2 = m := by simpa using List.find?_some hf
    rw [eq_of_nodup_map hc.mnemonics_nodup (List.mem_of_find?_eq_some hf) h hr]
    rfl

/-! ### What the decoder answers -/

@[simp] theorem mnemonic_build (m : Mnemonic) (a b : Operand) : (m.build a b).mnemonic = m := by
  cases m <;> rfl

theorem operands_build (m : Mnemonic) (a b : Operand) :
    (m.build a b).operands = [a, b].take m.format.nops := by
  cases m <;> rfl

theorem decodeLatched_eq_ok_iff {c : Config} (hc : c.Lawful) {f : Latched} {i : Instr} :
    decodeLatched c f = .ok i ↔ (f.ir, i.mnemonic) ∈ c.opcodeMap ∧ i.mnemonic.build f.opa f.opb = i := by
  constructor
  · intro h
    unfold decodeLatched at h
    split at h
    next m hm =>
      cases h
      rw [mnemonic_build]
      exact ⟨(lookupOpcode_eq_ok_iff hc).mp hm, rfl⟩
    next => cases h
  · rintro ⟨hm, hi⟩
    rw [decodeLatched_of_lookupOpcode ((lookupOpcode_eq_ok_iff hc).mpr hm), hi]

theorem decodeWith_eq_ok_iff {c : Config} {bytes rest : List Byte} {i : Instr} :
    decodeWith c bytes = .ok (i, rest) ↔ ∃ op tail, bytes = op :: tail ∧
      decodeLatched c ⟨op, tail[0]?, tail[1]?⟩ = .ok i ∧ rest = tail.drop i.mnemonic.format.nops := by
  cases bytes with
  | nil => simp [decodeWith]
  | cons op tail =>
    cases hd : decodeLatched c ⟨op, tail[0]?, tail[1]?⟩ with
    | error r => simp [decodeWith, hd]
    | ok j =>
      simp only [decodeWith, hd]
      constructor
      · intro h
        cases h
        exact ⟨op, tail, rfl, hd, rfl⟩
      · rintro ⟨op', tail', hb, hd', rfl⟩
        cases hb
        cases hd.symm.trans hd'
        rfl

/-! ### Operand bytes -/

/-- The laws of `Laws.OperandsRebuild`, one per constructor, as one law of every instruction. -/
theorem operandsRebuild (i : Instr) : Laws.OperandsRebuild.Statement i := by
  cases i with
  | hlt => exact Laws.OperandsRebuild.hlt
  | ret => exact Laws.OperandsRebuild.ret
  | push a => exact Laws.OperandsRebuild.push a
  | pop a => exact Laws.OperandsRebuild.pop a
  | prn a => exact Laws.OperandsRebuild.prn a
  | pra a => exact Laws.OperandsRebuild.pra a
  | call a => exact Laws.OperandsRebuild.call a
  | jmp a => exact Laws.OperandsRebuild.jmp a
  | jeq a => exact Laws.OperandsRebuild.jeq a
  | jne a => exact Laws.OperandsRebuild.jne a
  | not a => exact Laws.OperandsRebuild.not a
  | ldi a imm => exact Laws.OperandsRebuild.ldi a imm
  | st a b => exact Laws.OperandsRebuild.st a b
  | add a b => exact Laws.OperandsRebuild.add a b
  | sub a b => exact Laws.OperandsRebuild.sub a b
  | mul a b => exact Laws.OperandsRebuild.mul a b
  | div a b => exact Laws.OperandsRebuild.div a b
  | mod a b => exact Laws.OperandsRebuild.mod a b
  | addi a imm => exact Laws.OperandsRebuild.addi a imm
  | cmp a b => exact Laws.OperandsRebuild.cmp a b
  | and a b => exact Laws.OperandsRebuild.and a b
  | or a b => exact Laws.OperandsRebuild.or a b
  | xor a b => exact Laws.OperandsRebuild.xor a b
  | shl a b => exact Laws.OperandsRebuild.shl a b
  | shr a b => exact Laws.OperandsRebuild.shr a b

/-- The operand bytes that are present, of an instruction built from the head of a list, are the head
of that list. -/
theorem operandBytes_build (m : Mnemonic) (tail : List Byte) :
    (m.build tail[0]? tail[1]?).operands.filterMap id = tail.take m.format.nops := by
  rw [operands_build]
  rcases tail with _ | ⟨v, _ | ⟨w, rest⟩⟩ <;> cases m.format <;> rfl

theorem encodeWith_of_complete {c : Config} (hc : c.Lawful) {i : Instr} {op : Byte}
    (hm : (op, i.mnemonic) ∈ c.opcodeMap) (hi : i.complete = true) :
    encodeWith c i = some (op :: i.operands.filterMap id) := by
  simp [encodeWith, hi, opcodeOf_of_mem hc hm]

end Sys2Proof

namespace Sys2Proof.Machine

/-! ### The step where nothing is decoded -/

theorem stepWith_of_decodeLatched_error {c : Config} {s : State} {r : OpcodeReject}
    (hs : s.status = .running) (h : decodeLatched c (fetch s) = .error r) :
    stepWith c s = .next (raiseFault (rejectKind r) s) := by
  simp [stepWith, hs, h]

theorem rejectKind_cases (r : OpcodeReject) :
    rejectKind r = .unknownInstruction ∨ rejectKind r = .unsupportedAluOperation := by
  cases r with
  | unknownInstruction => exact .inl rfl
  | unsupportedAluOperation => exact .inr rfl

/-! ### How far an instruction advances the program counter -/

/-- Where the handler `r` leaves the machine running, it has advanced `pc` by `n`. -/
def EndsAdvanced (n : Nat) (s : State) (r : Except FaultKind State) : Prop :=
  ∀ t, settle s r = .next t → t.status = .running → t.pc.toNat = s.pc.toNat + n

theorem EndsAdvanced.error (n : Nat) (s : State) (k : FaultKind) : EndsAdvanced n s (.error k) := by
  intro t h hrun
  cases h
  cases hrun

/-- A handler that raises at a bind does not leave the machine running. -/
theorem EndsAdvanced.bind {α : Type} {n : Nat} {s : State} {x : Except FaultKind α}
    {g : α → Except FaultKind State} (h : ∀ v, x = .ok v → EndsAdvanced n s (g v)) :
    EndsAdvanced n s (x >>= g) := by
  cases x with
  | ok v => exact h v rfl
  | error k => exact EndsAdvanced.error n s k

theorem EndsAdvanced.advance (n : Nat) {s u : State} (hpc : u.pc = s.pc) :
    EndsAdvanced n s (.ok (advance n u)) := by
  intro t h hrun
  cases h
  rcases advance_cases n u with ⟨hle, he⟩ | ⟨-, he⟩
  · rw [he, setPc_pc, BitVec.toNat_ofNat, Nat.mod_eq_of_lt (Nat.lt_succ_of_le hle), hpc]
  · rw [he] at hrun
    cases hrun

theorem EndsAdvanced.halt (n : Nat) (s : State) : EndsAdvanced n s (.ok s.halt) := by
  intro t h hrun
  cases h
  cases hrun

theorem decrementSp_pc {s t : State} (h : decrementSp s = .ok t) : t.pc = s.pc := by
  obtain ⟨p, rfl⟩ := eq_setSp_of_decrementSp h
  rfl

theorem endsAdvanced_aluRegReg (f : Byte → Byte → Except FaultKind Byte) (oa ob : Operand) (s : State) :
    EndsAdvanced 3 s (aluRegReg f oa ob s) :=
  .bind fun _ _ => .bind fun _ _ => .advance 3 rfl

theorem endsAdvanced_printReg (event : Byte → OutEvent) (oa : Operand) (s : State) :
    EndsAdvanced 2 s (printReg event oa s) :=
  .bind fun _ _ => .advance 2 rfl

/-- An instruction that does not set `pc` itself and leaves the machine running has advanced `pc` by
its length (R78). HLT is no exception: it does not leave the machine running. -/
theorem exec_pc_of_running {i : Instr} (hi : i.mnemonic.setsPc = false) (s : State) :
    ∀ t, exec i s = .next t → t.status = .running → t.pc.toNat = s.pc.toNat + i.length := by
  cases i with
  | ret | call a | jmp a | jeq a | jne a => cases hi
  | hlt => exact EndsAdvanced.halt 1 s
  | push a =>
    exact EndsAdvanced.bind fun _ _ => .bind fun _ ht =>
      .advance 2 ((writeByte_pc _ _ _).trans (decrementSp_pc ht))
  | pop a => exact EndsAdvanced.bind fun _ _ => .bind fun _ _ => .advance 2 rfl
  | prn a | pra a => exact endsAdvanced_printReg _ a s
  | not a => exact EndsAdvanced.bind fun _ _ => .advance 2 rfl
  | ldi a imm | addi a imm => exact EndsAdvanced.bind fun _ _ => .bind fun _ _ => .advance 3 rfl
  | st a b | cmp a b => exact EndsAdvanced.bind fun _ _ => .advance 3 rfl
  | add a b | sub a b | mul a b | div a b | mod a b | and a b | or a b | xor a b | shl a b | shr a b =>
    exact endsAdvanced_aluRegReg _ a b s

end Sys2Proof.Machine

namespace Sys2Proof.Proofs

open Sys2Proof.Machine Sys2Proof.Claim

/-- Settles O10: the opcode byte's row is the instruction's, and the operand bytes rebuild it. -/
theorem decodeOfEncode : Obligations.DecodeOfEncode := by
  intro c i hadm hi
  have hc := Config.lawful_of_admissible hadm
  obtain ⟨op, hm⟩ := hc.mapped i.mnemonic
  obtain ⟨hlen, hbuild⟩ := operandsRebuild i hi
  refine ⟨_, encodeWith_of_complete hc hm hi, ?_, fun rest => ?_⟩
  · rw [List.length_cons, hlen, Instr.length, Nat.add_comm]
  · refine decodeWith_eq_ok_iff.mpr ⟨op, i.operands.filterMap id ++ rest, rfl, ?_, ?_⟩
    · exact (decodeLatched_eq_ok_iff hc).mpr ⟨hm, hbuild rest⟩
    · exact (List.drop_left' hlen).symm

/-- Settles O11: the operand bytes of what was decoded are the ones that stood there. -/
theorem encodeOfDecode : Obligations.EncodeOfDecode := by
  intro c bytes rest i hadm hdec hi
  have hc := Config.lawful_of_admissible hadm
  obtain ⟨op, tail, rfl, hd, rfl⟩ := decodeWith_eq_ok_iff.mp hdec
  obtain ⟨hm, hbuild⟩ := (decodeLatched_eq_ok_iff hc).mp hd
  refine ⟨op :: i.operands.filterMap id, encodeWith_of_complete hc hm hi, ?_⟩
  have hops : i.operands.filterMap id = tail.take i.mnemonic.format.nops := by
    rw [← operandBytes_build, hbuild]
  rw [hops, List.cons_append, List.take_append_drop]

/-- Settles O19: both mappings have the same rows, so they decode the same instructions, and a byte
without one faults under either. -/
theorem routedParameterChangesOnlyTheKind : Obligations.RoutedParameterChangesOnlyTheKind := by
  intro c c' s hadm hadm' hmap
  have hok (i : Instr) : decodeLatched c (fetch s) = .ok i ↔ decodeLatched c' (fetch s) = .ok i := by
    rw [decodeLatched_eq_ok_iff (Config.lawful_of_admissible hadm),
      decodeLatched_eq_ok_iff (Config.lawful_of_admissible hadm'), hmap]
  cases hs : s.status with
  | halted | faulted k => simp [stepWith, hs]
  | running =>
    cases hd : decodeLatched c (fetch s) with
    | ok i =>
      left
      rw [stepWith_of_decodeLatched hs hd, stepWith_of_decodeLatched hs ((hok i).mp hd)]
    | error r =>
      cases hd' : decodeLatched c' (fetch s) with
      | ok i => cases hd.symm.trans ((hok i).mpr hd')
      | error r' =>
        exact .inr ⟨rejectKind r, rejectKind r', stepWith_of_decodeLatched_error hs hd,
          stepWith_of_decodeLatched_error hs hd', rejectKind_cases r, rejectKind_cases r'⟩

/-- Settles O20: bits 7:6 and bit 4 of the opcode byte are the length and the handler's part in `pc`
of the instruction decoded, and `exec_pc_of_running` says how far that one advances. -/
theorem advanceFollowsTheControlBits : Obligations.AdvanceFollowsTheControlBits := by
  intro c s t hadm hstep hrun hbit
  have hc := Config.lawful_of_admissible hadm
  obtain ⟨-, ⟨r, -, rfl⟩ | ⟨i, hd, hexec⟩⟩ := stepWith_next hstep
  · cases hrun
  · obtain ⟨hm, -⟩ := (decodeLatched_eq_ok_iff hc).mp hd
    obtain ⟨hnops, -, hsets⟩ := hc.controlBits hm
    calc t.pc.toNat
      _ = s.pc.toNat + (1 + i.mnemonic.format.nops) :=
        exec_pc_of_running (hsets.symm.trans hbit) s t hexec hrun
      _ = s.pc.toNat + 1 + opNops (fetch s).ir := by rw [hnops, Nat.add_assoc]

/-- Settles O12: the statement's table is `specOpcodeMap`, and no byte is routed. -/
theorem exactlyTheMappedBytesDecode : Obligations.ExactlyTheMappedBytesDecode := fun _ => rfl

/-- Settles O13, by running the decoder on each word. -/
theorem writtenWordsDecode : Obligations.WrittenWordsDecode :=
  ⟨rfl, rfl, rfl, rfl, rfl, rfl, rfl, rfl⟩

end Sys2Proof.Proofs
end

/-! SUPPORT and PROOFS for the engine (spec/40_engine.md): the fetch against the bytes in memory, when
a step exists, and the statements of that family. -/

section

namespace Sys2Proof.Machine

open Sys2Proof.Claim

/-! ### The fetch reads the bytes from the program counter on -/

theorem getElem?_bytesFromPc (s : State) (k : Nat) : (bytesFromPc s)[k]? = fetchOperand s k := by
  by_cases h : s.pc.toNat + k ≤ 255
  · have hk : k < 256 - s.pc.toNat := by omega
    simp [bytesFromPc, hk, fetchOperand_of_le s k h]
  · have hk : 256 - s.pc.toNat ≤ k := by omega
    simp [bytesFromPc, hk, fetchOperand_of_gt s k (Nat.lt_of_not_le h)]

theorem fetch_eq_of_bytesFromPc {s : State} {op : Byte} {tail : List Byte} (h : bytesFromPc s = op :: tail) :
    fetch s = ⟨op, tail[0]?, tail[1]?⟩ := by
  have hbyte (k : Nat) : fetchOperand s k = (op :: tail)[k]? := by rw [← h, getElem?_bytesFromPc]
  have hpc : s.pc.toNat + 0 ≤ 255 := Nat.le_of_lt_succ s.pc.isLt
  have hir : s.readByte s.pc = op := Option.some.inj ((fetchOperand_of_le s 0 hpc).symm.trans (hbyte 0))
  simp [fetch, hir, hbyte]

/-- The bytes from the program counter on decode to the instruction the engine dispatches. -/
theorem decodeLatched_fetch {c : Config} {s : State} {i : Instr} {rest : List Byte}
    (h : decodeWith c (bytesFromPc s) = .ok (i, rest)) : decodeLatched c (fetch s) = .ok i := by
  obtain ⟨op, tail, hb, hd, -⟩ := decodeWith_eq_ok_iff.mp h
  rw [fetch_eq_of_bytesFromPc hb, hd]

theorem stepWith_of_decodeWith (c : Config) (s : State) (i : Instr) (rest : List Byte)
    (hs : s.status = .running) (h : decodeWith c (bytesFromPc s) = .ok (i, rest)) :
    stepWith c s = exec i s :=
  stepWith_of_decodeLatched hs (decodeLatched_fetch h)

/-! ### When a step exists -/

theorem exec_total (i : Instr) (s : State) : ∃ t, exec i s = .next t := by
  obtain ⟨t, h, -⟩ := exec_effect i s
  exact ⟨t, h⟩

theorem stepWith_total {c : Config} {s : State} (hs : s.status = .running) : ∃ t, stepWith c s = .next t := by
  cases hd : decodeLatched c (fetch s) with
  | ok i =>
    rw [stepWith_of_decodeLatched hs hd]
    exact exec_total i s
  | error r => exact ⟨_, stepWith_of_decodeLatched_error hs hd⟩

theorem stepWith_of_halted (c : Config) {s : State} (hs : s.status = .halted) :
    stepWith c s = .fault .machineHalted := by
  simp [stepWith, hs]

theorem stepWith_of_faulted (c : Config) {s : State} {k : FaultKind} (hs : s.status = .faulted k) :
    stepWith c s = .fault (.machineFaulted k) := by
  simp [stepWith, hs]

/-- The first step of a run is a step, so a run of one step or more starts in Running. -/
theorem running_of_run_succ_next {n : Nat} {s t : State}
    (h : Host.Core.run Sys2Proof.core (n + 1) s = .next t) : s.status = .running := by
  obtain ⟨u, hu, -⟩ := run_succ_next h
  exact (stepWith_next hu).1

end Sys2Proof.Machine

namespace Sys2Proof.Proofs

open Sys2Proof.Machine Sys2Proof.Claim

/-- Settles O22: a Running machine faults on the opcode or runs an instruction, which is total; a
terminal one has no first step. -/
theorem stepExistsOnlyWhenRunning : Obligations.StepExistsOnlyWhenRunning :=
  ⟨fun _ hs => stepWith_total hs, fun _ hs => stepWith_of_halted _ hs,
    fun _ _ hs => stepWith_of_faulted _ hs, fun _ _ _ hs h => hs (running_of_run_succ_next h)⟩

/-- Settles O14: the latched bytes are the head of the bytes from the program counter on. -/
theorem stepRunsTheDecodedInstruction : Obligations.StepRunsTheDecodedInstruction :=
  ⟨stepWith_of_decodeWith, stepWith_of_decodeWith specConfig⟩

/-- Settles O15, by the two cases of an operand's address. -/
theorem fetchAtTheEndOfMemory : Obligations.FetchAtTheEndOfMemory := by
  refine fun s => ⟨rfl, fun h => ?_, fun h => ?_, fun h => ?_, fun h => ?_⟩
  · exact fetchOperand_of_le s 1 (by omega)
  · exact fetchOperand_of_gt s 1 (by omega)
  · exact fetchOperand_of_le s 2 (by omega)
  · exact fetchOperand_of_gt s 2 (by omega)

/-- Settles O23: the instruction ends in one of the shapes of `Effect`. -/
theorem everyInstructionTakesItsStep : Obligations.EveryInstructionTakesItsStep := exec_total

end Sys2Proof.Proofs
end

/-! SUPPORT and PROOFS for data movement and output (spec/41_data_movement_and_output.md): the rule of
an instruction of two or three bytes from what its handler writes before the advance, and the
statements of that family. -/

section

namespace Sys2Proof.Machine

open Sys2Proof.Claim

/-! ### The advance after an effect that leaves `pc` -/

theorem advance_eq_of_pc_le {n : Nat} {s u : State} (hpc : u.pc = s.pc) (h : s.pc.toNat + n ≤ 255) :
    advance n u = { u with pc := toByte (s.pc.toNat + n) } := by
  rw [← hpc] at h ⊢
  exact advance_of_le n u h

theorem advance_eq_of_pc_gt {n : Nat} {s u : State} (hpc : u.pc = s.pc) (h : 255 < s.pc.toNat + n) :
    advance n u = afterFault .outOfRangeAddress u :=
  advance_of_gt n u (hpc ▸ h)

@[simp] theorem reg_advance (n : Nat) (s : State) (a : RegIdx) : (advance n s).reg a = s.reg a := by
  simp [reg_eq]

/-! ### The shapes of an instruction's rule

The last clause of each shape is about the bytes in memory: an operand byte lies beyond address 255,
so the step is the operand fault of the clause before. -/

theorem step_of_lookupOpcode {s : State} {opc : Byte} {m : Mnemonic} (hs : s.status = .running)
    (hb : Memory.byteAt s.mem s.pc.toNat = opc) (hm : lookupOpcode specConfig opc = .ok m) :
    step s = exec (m.build (fetchOperand s 1) (fetchOperand s 2)) s := by
  subst hb
  exact stepWith_of_decodeLatched hs (decodeLatched_of_lookupOpcode hm)

section

variable {opc : Byte} {m : Mnemonic} (hm : lookupOpcode specConfig opc = .ok m)
include hm

theorem threeByteRule_of_exec {mk : Operand → Operand → Instr} {ok : RegIdx → RegIdx → State → Prop}
    {effect : RegIdx → RegIdx → State → State} (hmk : ∀ oa ob, m.build oa ob = mk oa ob)
    (henc : ∀ va vb, encode (mk (some va) (some vb)) = some [opc, va, vb])
    (hpc : ∀ a b s, (effect a b s).pc = s.pc)
    (hexec : ∀ a b s, ok a b s → exec (mk (regByte a) (regByte b)) s = .next (advance 3 (effect a b s)))
    (hbad : ∀ oa ob s, Operand.isReg oa = false ∨ Operand.isReg ob = false →
      exec (mk oa ob) s = .next (raiseFault .outOfRangeAddress s)) :
    ThreeByteRule mk opc ok effect := by
  refine ⟨henc, fun a b s hok hs => ?_, fun a b s hok hs => ?_, hbad, fun s hrun hb hs => ?_⟩
  · rw [hexec a b s hok, advance_eq_of_pc_le (hpc a b s) (by omega)]
  · rw [hexec a b s hok, advance_eq_of_pc_gt (hpc a b s) (by omega)]
  · rw [step_of_lookupOpcode hrun hb hm, fetchOperand_of_gt s 2 (by omega), hmk]
    exact hbad _ _ s (.inr isReg_none)

theorem twoByteRule_of_exec {mk : Operand → Instr} {ok : RegIdx → State → Prop}
    {effect : RegIdx → State → State} (hmk : ∀ oa ob, m.build oa ob = mk oa)
    (henc : ∀ va, encode (mk (some va)) = some [opc, va])
    (hpc : ∀ a s, (effect a s).pc = s.pc)
    (hexec : ∀ a s, ok a s → exec (mk (regByte a)) s = .next (advance 2 (effect a s)))
    (hbad : ∀ oa s, Operand.isReg oa = false → exec (mk oa) s = .next (raiseFault .outOfRangeAddress s)) :
    TwoByteRule mk opc ok effect := by
  refine ⟨henc, fun a s hok hs => ?_, fun a s hok hs => ?_, hbad, fun s hrun hb hs => ?_⟩
  · rw [hexec a s hok, advance_eq_of_pc_le (hpc a s) (by omega)]
  · rw [hexec a s hok, advance_eq_of_pc_gt (hpc a s) (by omega)]
  · rw [step_of_lookupOpcode hrun hb hm, fetchOperand_of_gt s 1 (by omega), hmk]
    exact hbad _ s isReg_none

end

/-! ### A register and an immediate -/

@[simp] theorem aluRegImm_regByte (f : Byte → Byte → Byte) (a : RegIdx) (v : Byte) (s : State) :
    aluRegImm f (regByte a) (some v) s = .ok (advance 3 (s.setReg a (f (s.reg a) v))) := by
  simp [aluRegImm, bind, Except.bind, pure, Except.pure]

theorem aluRegImm_of_illegal {oa oimm : Operand} (h : Operand.isReg oa = false ∨ oimm = none)
    (f : Byte → Byte → Byte) (s : State) : aluRegImm f oa oimm s = .error .outOfRangeAddress := by
  rcases aluRegImm_cases f oa oimm s with ⟨a, v, rfl, rfl, -⟩ | ⟨-, he⟩
  · simp at h
  · exact he

theorem immediateRule_of_exec {opc : Byte} {m : Mnemonic} (hm : lookupOpcode specConfig opc = .ok m)
    {mk : Operand → Operand → Instr} {f : Byte → Byte → Byte} (hmk : ∀ oa oimm, m.build oa oimm = mk oa oimm)
    (henc : ∀ va v, encode (mk (some va) (some v)) = some [opc, va, v])
    (hexec : ∀ oa oimm s, exec (mk oa oimm) s = settle s (aluRegImm f oa oimm s)) :
    ImmediateRule mk opc (fun a v s => { s with x := s.x.set a (f s.x[a] v) }) := by
  have hbad (oa oimm : Operand) (s : State) (h : Operand.isReg oa = false ∨ oimm = none) :
      exec (mk oa oimm) s = .next (afterFault .outOfRangeAddress s) := by
    rw [hexec, aluRegImm_of_illegal h]
    rfl
  refine ⟨henc, fun a v s hs => ?_, fun a v s hs => ?_, hbad, fun s hrun hb hs => ?_⟩
  · rw [hexec, aluRegImm_regByte, settle_ok, advance_eq_of_pc_le (setReg_pc s a _) (by omega)]
    rfl
  · rw [hexec, aluRegImm_regByte, settle_ok, advance_eq_of_pc_gt (setReg_pc s a _) (by omega)]
    rfl
  · rw [step_of_lookupOpcode hrun hb hm, fetchOperand_of_gt s 2 (by omega), hmk]
    exact hbad _ _ s (.inr rfl)

/-- LDI is the register-immediate handler that keeps the immediate. -/
theorem exec_ldi (a : RegIdx) (v : Byte) (s : State) :
    exec (.ldi (regByte a) (some v)) s = .next (advance 3 (s.setReg a v)) :=
  congrArg (settle s) (aluRegImm_regByte (fun _ v => v) a v s)

/-! ### Output -/

@[simp] theorem printReg_regByte (event : Byte → OutEvent) (a : RegIdx) (s : State) :
    printReg event (regByte a) s = .ok (advance 2 (s.emit (event (s.reg a)))) := by
  simp [printReg, bind, Except.bind, pure, Except.pure]

theorem printReg_of_not_isReg {oa : Operand} (h : Operand.isReg oa = false) (event : Byte → OutEvent)
    (s : State) : printReg event oa s = .error .outOfRangeAddress := by
  simp [printReg, regOperand_of_not_isReg _ h, bind, Except.bind]

theorem exec_prn (a : RegIdx) (s : State) :
    exec (.prn (regByte a)) s = .next (advance 2 (s.emit (.num (s.reg a)))) :=
  congrArg (settle s) (printReg_regByte .num a s)

/-- PRN and PRA at once: they differ in the event alone. -/
theorem twoByteRule_of_exec_printReg {opc : Byte} {m : Mnemonic}
    (hm : lookupOpcode specConfig opc = .ok m) {mk : Operand → Instr} {event : Byte → OutEvent}
    (hmk : ∀ oa ob, m.build oa ob = mk oa) (henc : ∀ va, encode (mk (some va)) = some [opc, va])
    (hexec : ∀ oa s, exec (mk oa) s = settle s (printReg event oa s)) :
    TwoByteRule mk opc (fun _ _ => True) (fun a s => { s with out := s.out ++ [event s.x[a]] }) := by
  refine twoByteRule_of_exec hm hmk henc (fun _ _ => rfl) (fun a s _ => ?_) (fun oa s h => ?_)
  · rw [hexec, printReg_regByte]
    rfl
  · rw [hexec, printReg_of_not_isReg h]
    rfl

end Sys2Proof.Machine

namespace Sys2Proof.Proofs

open Sys2Proof.Machine Sys2Proof.Claim

/-- Settles O34: the register-immediate rule, and the register PRN reads is the one LDI wrote. -/
theorem ldiRule : Obligations.LdiRule := by
  refine ⟨immediateRule_of_exec (f := fun _ v => v) (m := .ldi) rfl (fun _ _ => rfl) (fun _ _ => rfl)
    (fun _ _ _ => rfl), fun a v s _ => ⟨_, _, exec_ldi a v s, exec_prn a _, ?_⟩⟩
  simp

/-- Settles O35: the handler stores and then advances, unless an operand is no register. -/
theorem stRule : Obligations.StRule :=
  threeByteRule_of_exec (m := .st) rfl (fun _ _ => rfl) (fun _ _ => rfl) (fun _ _ _ => rfl)
    (fun a b s _ => exec_st a b s) (fun _ _ s h => exec_st_of_not_isReg h s)

/-- Settles O36: both print a register, and each has its own event. -/
theorem printRules : Obligations.PrintRules :=
  ⟨twoByteRule_of_exec_printReg (m := .prn) rfl (fun _ _ => rfl) (fun _ => rfl) (fun _ _ => rfl),
    twoByteRule_of_exec_printReg (m := .pra) rfl (fun _ _ => rfl) (fun _ => rfl) (fun _ _ => rfl)⟩

end Sys2Proof.Proofs
end

/-! SUPPORT and PROOFS for the stack (spec/42_stack.md): what POP does, what PUSH and POP do to the
pointer, and the statements of that family. -/

section

namespace Sys2Proof.Machine

/-! ### The pointer -/

theorem sp_toNat_ne_zero {s : State} (h : s.x[7] ≠ 0#8) : s.sp.toNat ≠ 0 :=
  fun h0 => h (BitVec.eq_of_toNat_eq h0)

theorem toNat_toByte_pred (v : Byte) : (toByte (v.toNat - 1)).toNat = v.toNat - 1 := by
  simp; omega

theorem toNat_add_one_le {v : Byte} (h : v ≠ 255#8) : v.toNat + 1 ≤ 255 := by
  bv_omega

/-- The pointer after a decrement that did not fault is one below, so incrementing it gives it back. -/
theorem addrPlus_pred_one {v : Byte} (h : v.toNat ≠ 0) : addrPlus (toByte (v.toNat - 1)) 1 = .ok v := by
  have hv : v.toNat - 1 + 1 = v.toNat := by omega
  have hle : v.toNat ≤ 255 := Nat.le_of_lt_succ v.isLt
  rw [addrPlus_of_le _ _ (by rwa [toNat_toByte_pred, hv]), toNat_toByte_pred, hv]
  simp

@[simp] theorem sp_advance (n : Nat) (s : State) : (advance n s).sp = s.sp := reg_advance n s spIdx

theorem sp_setReg (s : State) (a : RegIdx) (v : Byte) :
    (s.setReg a v).sp = if a = 7 then v else s.x[7] := reg_setReg s a spIdx v

theorem reg_setSp_eq_ite (s : State) (a : RegIdx) (p : Byte) :
    (s.setSp p).reg a = if a = 7 then p else s.x[a] := by
  simp only [reg_setSp, spIdx, @eq_comm _ a]
  rfl

theorem setSp_writeByte (s : State) (p a v : Byte) :
    (s.writeByte a v).setSp p = (s.setSp p).writeByte a v := rfl

theorem setSp_setSp_sp (s : State) (p : Byte) : (s.setSp p).setSp s.sp = s := by
  simp [State.setSp, State.setReg, State.sp, State.reg]

theorem setReg_reg_self (s : State) (a : RegIdx) : s.setReg a (s.reg a) = s := by
  simp [State.setReg, State.reg]

theorem advance_setSp (n : Nat) (s : State) (p : Byte) : advance n (s.setSp p) = (advance n s).setSp p := by
  rcases advance_cases n s with ⟨hle, h⟩ | ⟨hgt, h⟩
  · exact (advance_of_le n (s.setSp p) hle).trans (congrArg (·.setSp p) h.symm)
  · exact (advance_of_gt n (s.setSp p) hgt).trans (congrArg (·.setSp p) h.symm)

theorem advance_advance {m n : Nat} {s : State} (h : s.pc.toNat + m + n ≤ 255) :
    advance n (advance m s) = advance (m + n) s := by
  have hpc : (toByte (s.pc.toNat + m)).toNat = s.pc.toNat + m := by simp; omega
  rw [advance_of_le m s (by omega), advance_of_le n _ (by rwa [setPc_pc, hpc]), setPc_pc, hpc,
    advance_of_le (m + n) s (by omega), Nat.add_assoc]
  rfl

/-! ### POP -/

theorem exec_pop (a : RegIdx) {s : State} {p : Byte}
    (hp : addrPlus (s.setReg a (s.readByte s.sp)).sp 1 = .ok p) :
    exec (.pop (regByte a)) s = .next (advance 2 ((s.setReg a (s.readByte s.sp)).setSp p)) := by
  simp [exec, execPop, hp, bind, Except.bind, pure, Except.pure]

theorem exec_pop_of_addrPlus_error (a : RegIdx) {s : State} {k : FaultKind}
    (hk : addrPlus (s.setReg a (s.readByte s.sp)).sp 1 = .error k) :
    exec (.pop (regByte a)) s = .next (raiseFault k s) := by
  simp [exec, execPop, hk, bind, Except.bind]

theorem exec_pop_of_not_isReg {oa : Operand} (h : Operand.isReg oa = false) (s : State) :
    exec (.pop oa) s = .next (raiseFault .outOfRangeAddress s) := by
  simp [exec, execPop, regOperand_of_not_isReg _ h, bind, Except.bind]

/-- Where register `a` already holds the byte at the pointer, POP moves the pointer alone. -/
theorem exec_pop_of_readByte_eq_reg {a : RegIdx} {s : State} {p : Byte} (h : s.readByte s.sp = s.reg a)
    (hp : addrPlus s.sp 1 = .ok p) : exec (.pop (regByte a)) s = .next (advance 2 (s.setSp p)) := by
  have hs : s.setReg a (s.readByte s.sp) = s := by rw [h, setReg_reg_self]
  rw [exec_pop a (hs.symm ▸ hp), hs]

/-! ### PUSH then POP -/

/-- PUSH stores to the cell at the decremented pointer what its register then holds, R7 included, so
POP leaves that register and moves the pointer alone. -/
theorem exec_pop_after_push (a : RegIdx) {t : State} {p : Byte} (hp : addrPlus t.sp 1 = .ok p) :
    exec (.pop (regByte a)) (advance 2 (t.writeByte t.sp (t.reg a))) =
      .next (advance 2 ((advance 2 (t.writeByte t.sp (t.reg a))).setSp p)) :=
  exec_pop_of_readByte_eq_reg (by simp [State.readByte]) (by simpa using hp)

/-- PUSH then POP is one store and an advance by 4: the pointer goes down and back up. -/
theorem exec_push_then_pop (a : RegIdx) {s : State} {p : Byte} (hp : p = toByte (s.sp.toNat - 1))
    (hsp : s.sp.toNat ≠ 0) (hpc : s.pc.toNat ≤ 251) :
    ∃ t, exec (.push (regByte a)) s = .next t ∧
      exec (.pop (regByte a)) t = .next (advance 4 (s.writeByte p ((s.setSp p).reg a))) := by
  subst hp
  refine ⟨_, exec_push a (decrementSp_pos s hsp), ?_⟩
  rw [exec_pop_after_push a (by rw [sp_setSp, addrPlus_pred_one hsp]), ← advance_setSp,
    advance_advance (by simp; omega), setSp_writeByte, setSp_setSp_sp, sp_setSp]

end Sys2Proof.Machine

namespace Sys2Proof.Proofs

open Sys2Proof.Machine Sys2Proof.Claim

/-- Settles O37: the pointer is decremented or it is 0, and the register is read after the decrement. -/
theorem pushRule : Obligations.PushRule := by
  refine ⟨twoByteRule_of_exec (m := .push) rfl (fun _ _ => rfl) (fun _ => rfl) (fun _ _ => rfl)
    (fun a s h => ?_) (fun _ s h => exec_push_of_not_isReg h s), fun a s h => ?_⟩
  · rw [exec_push a (decrementSp_pos s (sp_toNat_ne_zero h)), State.writeByte, sp_setSp,
      toNat_toByte_pred, reg_setSp_eq_ite]
    rfl
  · exact exec_push_of_decrementSp_error a (decrementSp_zero s (congrArg BitVec.toNat h))

/-- Settles O38: the pointer to be incremented is that of the state in which `x[a]` is already
written. -/
theorem popRule : Obligations.PopRule := by
  refine ⟨twoByteRule_of_exec (m := .pop) rfl (fun _ _ => rfl) (fun _ => rfl) (fun _ _ => rfl)
    (fun a s h => ?_) (fun _ s h => exec_pop_of_not_isReg h s), fun a s h => ?_⟩
  · have hsp := sp_setReg s a (s.readByte s.sp)
    rw [exec_pop a (addrPlus_of_le _ 1 (toNat_add_one_le (hsp ▸ h))), hsp]
    rfl
  · have hsp := (sp_setReg s a (s.readByte s.sp)).trans h
    exact exec_pop_of_addrPlus_error a (addrPlus_of_gt _ 1 (by rw [hsp]; decide))

/-- Settles O39: PUSH then POP is one store, to the cell below the pointer, and an advance by 4. -/
theorem pushPopRoundTrip : Obligations.PushPopRoundTrip := by
  intro a s h7 hpc
  obtain ⟨t, hpush, hpop⟩ := exec_push_then_pop a rfl (sp_toNat_ne_zero h7) hpc
  rw [advance_of_le 4 _ (by simp; omega)] at hpop
  refine ⟨t, _, hpush, hpop, rfl, ?_, rfl, rfl, rfl, fun n => ?_⟩
  · simp; omega
  · simp only [setPc_mem, writeByte_mem, byteAt_setByte, toNat_toByte_pred, reg_setSp_eq_ite, sp_eq]

end Sys2Proof.Proofs
end

/-! SUPPORT and PROOFS for control transfer (spec/43_control_transfer.md): what CALL, RET and the jumps
do to `pc`, and the statements of that family. -/

section

namespace Sys2Proof.Machine

open Sys2Proof.Claim

/-! ### Jumps and branches -/

@[simp] theorem jumpReg_regByte (a : RegIdx) (s : State) : jumpReg (regByte a) s = .ok (s.setPc (s.reg a)) := by
  simp [jumpReg, bind, Except.bind, pure, Except.pure]

theorem jumpReg_of_not_isReg {oa : Operand} (h : Operand.isReg oa = false) (s : State) :
    jumpReg oa s = .error .outOfRangeAddress := by
  simp [jumpReg, regOperand_of_not_isReg _ h, bind, Except.bind]

theorem exec_jmp_of_not_isReg {oa : Operand} (h : Operand.isReg oa = false) (s : State) :
    exec (.jmp oa) s = .next (afterFault .outOfRangeAddress s) :=
  congrArg (settle s) (jumpReg_of_not_isReg h s)

/-- JEQ and JNE are one handler with opposite conditions. -/
theorem exec_jeq (oa : Operand) (s : State) : exec (.jeq oa) s = settle s (branchReg (s.fl.getLsbD 0) oa s) := rfl

theorem exec_jne (oa : Operand) (s : State) : exec (.jne oa) s = settle s (branchReg (!s.fl.getLsbD 0) oa s) := rfl

theorem settle_branchReg_taken (a : RegIdx) (s : State) :
    settle s (branchReg true (regByte a) s) = .next { s with pc := s.x[a] } :=
  congrArg (settle s) (jumpReg_regByte a s)

theorem settle_branchReg_not_taken (oa : Operand) {s : State} (h : s.pc.toNat ≤ 253) :
    settle s (branchReg false oa s) = .next { s with pc := toByte (s.pc.toNat + 2) } :=
  congrArg (Host.Outcome.next ·) (advance_of_le 2 s (by omega))

/-- The faults of a branch: taken, a bad operand; not taken, an advance past 255. -/
theorem settle_branchReg_fault {taken : Bool} {oa : Operand} {s : State}
    (h : (taken = true ∧ Operand.isReg oa = false) ∨ (taken = false ∧ 254 ≤ s.pc.toNat)) :
    settle s (branchReg taken oa s) = .next (afterFault .outOfRangeAddress s) := by
  rcases h with ⟨rfl, hr⟩ | ⟨rfl, hpc⟩
  · exact exec_jmp_of_not_isReg hr s
  · exact congrArg (Host.Outcome.next ·) (advance_of_gt 2 s (by omega))

/-! ### CALL -/

/-- Each of the three faults of CALL leaves the state before it, Faulted. -/
theorem exec_call_fault {oa : Operand} {s : State}
    (h : Operand.isReg oa = false ∨ s.x[7] = 0#8 ∨ 254 ≤ s.pc.toNat) :
    exec (.call oa) s = .next (afterFault .outOfRangeAddress s) := by
  rcases regOperand_cases oa with ⟨a, rfl, -⟩ | ⟨hr, -⟩
  · rcases decrementSp_cases s with ⟨h0, ht⟩ | ⟨-, hk⟩
    · have hpc : 254 ≤ s.pc.toNat := by
        rcases h with hr | h7 | hpc
        · simp at hr
        · exact absurd (congrArg BitVec.toNat h7) h0
        · exact hpc
      exact exec_call_of_addrPlus_error a ht (addrPlus_of_gt _ 2 (by omega))
    · exact exec_call_of_decrementSp_error a hk
  · exact exec_call_of_not_isReg hr s

/-- CALL at its values: `p` is the decremented pointer. -/
theorem exec_call_of_ne_zero (a : RegIdx) {s : State} {p : Byte} (hp : p = toByte (s.sp.toNat - 1))
    (h7 : s.x[7] ≠ 0#8) (hpc : s.pc.toNat ≤ 253) :
    exec (.call (regByte a)) s =
      .next (((s.setSp p).writeByte p (toByte (s.pc.toNat + 2))).setPc ((s.setSp p).reg a)) := by
  subst hp
  rw [exec_call a (decrementSp_pos s (sp_toNat_ne_zero h7)) (addrPlus_of_le _ 2 (by omega)), sp_setSp]

/-- The state CALL leaves holds the return address in the cell under its pointer. -/
theorem readByte_sp_setPc_writeByte_setSp (s : State) (p v q : Byte) :
    (((s.setSp p).writeByte p v).setPc q).readByte (((s.setSp p).writeByte p v).setPc q).sp = v := by
  have hsp : (((s.setSp p).writeByte p v).setPc q).sp = p := sp_setSp s p
  rw [hsp]
  exact byteAt_setByte_same s.mem p.toNat v

/-! ### RET -/

theorem exec_ret {s : State} {p : Byte} (hp : addrPlus s.sp 1 = .ok p) :
    exec .ret s = .next ((s.setPc (s.readByte s.sp)).setSp p) := by
  simp [exec, execRet, hp, bind, Except.bind, pure, Except.pure]

theorem exec_ret_of_addrPlus_error {s : State} {k : FaultKind} (hk : addrPlus s.sp 1 = .error k) :
    exec .ret s = .next (raiseFault k s) := by
  simp [exec, execRet, hk, bind, Except.bind]

end Sys2Proof.Machine

namespace Sys2Proof.Proofs

open Sys2Proof.Machine Sys2Proof.Claim

/-- Settles O40: the target is read after the decrement, and the three faults come before any write. -/
theorem callRule : Obligations.CallRule := by
  refine ⟨fun _ => rfl, fun a s h7 hpc => ?_, fun _ _ h => exec_call_fault h, fun s hrun hb hpc => ?_⟩
  · rw [exec_call_of_ne_zero a rfl h7 hpc, State.writeByte, toNat_toByte_pred, reg_setSp_eq_ite]
    rfl
  · rw [step_of_lookupOpcode (m := .call) hrun hb rfl]
    exact exec_call_fault (.inr (.inr hpc))

/-- Settles O41: the pointer is incremented or it is 255; RET has no operand to examine. -/
theorem retRule : Obligations.RetRule := by
  refine ⟨rfl, fun s h7 => ?_, fun s h7 => ?_, fun s hrun hb => step_of_lookupOpcode (m := .ret) hrun hb rfl⟩
  · exact exec_ret (addrPlus_of_le s.sp 1 (toNat_add_one_le h7))
  · exact exec_ret_of_addrPlus_error (addrPlus_of_gt s.sp 1 (by rw [sp_eq, h7]; decide))

/-- Settles O43: the two conditions of the branch handler, each with E set and with E clear. -/
theorem conditionalBranchRules : Obligations.ConditionalBranchRules := by
  refine ⟨fun _ => ⟨rfl, rfl⟩, fun a s hE => ?_, fun a s hE => ?_, fun oa s hE hpc => ?_,
    fun oa s hE hpc => ?_, fun oa s h => ?_, fun oa s h => ?_⟩
  · rw [exec_jeq, hE, settle_branchReg_taken]
  · rw [exec_jne, hE, Bool.not_false, settle_branchReg_taken]
  · rw [exec_jeq, hE, settle_branchReg_not_taken oa hpc]
  · rw [exec_jne, hE, Bool.not_true, settle_branchReg_not_taken oa hpc]
  · rw [exec_jeq, settle_branchReg_fault h]
  · rw [exec_jne, settle_branchReg_fault (by simpa using h)]

/-- Settles O44: the cell at the decremented pointer holds the return address, and one above that
pointer is the pointer before the CALL. -/
theorem callThenRetReturns : Obligations.CallThenRetReturns := by
  intro a s h7 hpc
  refine ⟨_, exec_call_of_ne_zero a rfl h7 hpc, fun r hsp hcell => ?_⟩
  have hret : r.readByte r.sp = toByte (s.pc.toNat + 2) :=
    (congrArg r.readByte hsp).trans (hcell.trans (readByte_sp_setPc_writeByte_setSp s _ _ _))
  have hrsp : r.sp = toByte (s.sp.toNat - 1) := hsp.trans (sp_setSp s _)
  have hup : addrPlus r.sp 1 = .ok s.sp := by rw [hrsp, addrPlus_pred_one (sp_toNat_ne_zero h7)]
  refine ⟨_, exec_ret hup, ?_, sp_setSp _ _⟩
  rw [setSp_pc, setPc_pc, hret]
  simp
  omega

/-- Settles O42: the jump needs a register operand and nothing of `pc`. -/
theorem jmpRule : Obligations.JmpRule := by
  refine ⟨fun _ => rfl, fun a s => congrArg (settle s) (jumpReg_regByte a s),
    fun _ s h => exec_jmp_of_not_isReg h s, fun s hrun hb hpc => ?_⟩
  rw [step_of_lookupOpcode (m := .jmp) hrun hb rfl, fetchOperand_of_gt s 1 (by omega)]
  exact exec_jmp_of_not_isReg isReg_none s

end Sys2Proof.Proofs
end

/-! PROOFS for the system instruction (spec/44_system.md). -/

section

namespace Sys2Proof.Proofs

open Sys2Proof.Machine

/-- Settles O45: the byte 0x01 is the row of HLT, whose meaning sets the status and reads neither `pc`
nor the advance, so 254 and 255 are no special case. -/
theorem hltRule : Obligations.HltRule := by
  refine ⟨rfl, exec_hlt, fun s hrun hb => ?_⟩
  rw [step_of_lookupOpcode (m := .hlt) hrun hb rfl]
  exact exec_hlt s

end Sys2Proof.Proofs
end

/-! SUPPORT and PROOFS for the ALU (spec/45_alu.md): the operations as arithmetic and as bits, the rule
of an instruction of the shared handler from its operation alone, the fault kinds a handler can raise,
and the statements of that family. -/

section

namespace Sys2Proof.Machine

open Sys2Proof.Claim

/-! ### The operations -/

theorem toByte_mod (n : Nat) : toByte (n % 256) = toByte n :=
  BitVec.eq_of_toNat_eq (Nat.mod_mod n 256)

theorem toNat_toByte_of_le {n : Nat} (h : n ≤ 255) : (toByte n).toNat = n :=
  Nat.mod_eq_of_lt (Nat.lt_succ_of_le h)

theorem aluAdd_eq (u v : Byte) : aluAdd u v = toByte ((u.toNat + v.toNat) % 256) := (toByte_mod _).symm

theorem aluMul_eq (u v : Byte) : aluMul u v = toByte ((u.toNat * v.toNat) % 256) := (toByte_mod _).symm

theorem aluShl_eq (u v : Byte) : aluShl u v = toByte ((u.toNat * 2 ^ v.toNat) % 256) := (toByte_mod _).symm

/-- The wrap of a difference below zero, without integers. -/
theorem aluSub_eq (u v : Byte) : aluSub u v = toByte
    (if v.toNat ≤ u.toNat then u.toNat - v.toNat else u.toNat + 256 - v.toNat) := by
  apply BitVec.eq_of_toNat_eq
  have hu := u.isLt
  have hv := v.isLt
  unfold aluSub
  split <;> simp only [BitVec.toNat_ofInt, BitVec.toNat_ofNat] <;> omega

theorem toNat_ne_zero_of_ne {v : Byte} (h : v ≠ 0#8) : v.toNat ≠ 0 := fun h0 => h (BitVec.eq_of_toNat_eq h0)

theorem aluDiv_of_ne_zero (u : Byte) {v : Byte} (h : v ≠ 0#8) : aluDiv u v = .ok (toByte (u.toNat / v.toNat)) :=
  if_neg (toNat_ne_zero_of_ne h)

theorem aluMod_of_ne_zero (u : Byte) {v : Byte} (h : v ≠ 0#8) :
    aluMod u v = .ok (toByte (u.toNat - v.toNat * (u.toNat / v.toNat))) :=
  if_neg (toNat_ne_zero_of_ne h)

theorem aluDiv_zero (u : Byte) : aluDiv u 0#8 = .error .divideByZero := rfl

theorem aluMod_zero (u : Byte) : aluMod u 0#8 = .error .divideByZero := rfl

/-- The two result bytes hold the exact quotient and the exact remainder: neither is above 255. -/
theorem quotient_remainder_toNat (u v : Byte) :
    (toByte (u.toNat / v.toNat)).toNat = u.toNat / v.toNat ∧
      (toByte (u.toNat - v.toNat * (u.toNat / v.toNat))).toNat = u.toNat % v.toNat := by
  have hu : u.toNat ≤ 255 := Nat.le_of_lt_succ u.isLt
  rw [← Nat.mod_eq_sub_mul_div]
  exact ⟨toNat_toByte_of_le (Nat.le_trans (Nat.div_le_self _ _) hu),
    toNat_toByte_of_le (Nat.le_trans (Nat.mod_le _ _) hu)⟩

theorem aluNot_eq_complement (u : Byte) : aluNot u = ~~~u := by
  apply BitVec.eq_of_toNat_eq
  rw [BitVec.toNat_not]
  exact toNat_toByte_of_le (Nat.sub_le 255 u.toNat)

theorem aluShl_eq_shiftLeft (u v : Byte) : aluShl u v = u <<< v.toNat := by
  apply BitVec.eq_of_toNat_eq
  rw [BitVec.toNat_shiftLeft, Nat.shiftLeft_eq]
  rfl

theorem aluShr_eq_ushiftRight (u v : Byte) : aluShr u v = u >>> v.toNat := by
  apply BitVec.eq_of_toNat_eq
  rw [BitVec.toNat_ushiftRight, Nat.shiftRight_eq_div_pow]
  exact toNat_toByte_of_le (Nat.le_trans (Nat.div_le_self _ _) (Nat.le_of_lt_succ u.isLt))

theorem compareFlags_eq (u v : Byte) : compareFlags u v =
    if u = v then 0b00000001#8 else if v.toNat < u.toNat then 0b00000010#8 else 0b00000100#8 := by
  simp only [compareFlags, BitVec.toNat_inj]

/-! ### The shared handler on two registers, and on one -/

theorem aluRegReg_of_ok {f : Byte → Byte → Except FaultKind Byte} {a b : RegIdx} {s : State} {r : Byte}
    (hf : f s.x[a] s.x[b] = .ok r) :
    aluRegReg f (regByte a) (regByte b) s = .ok (advance 3 (s.setReg a r)) := by
  rw [← reg_eq, ← reg_eq] at hf
  simp [aluRegReg, hf, bind, Except.bind, pure, Except.pure]

theorem aluRegReg_of_error {f : Byte → Byte → Except FaultKind Byte} {a b : RegIdx} {s : State}
    {k : FaultKind} (hf : f s.x[a] s.x[b] = .error k) :
    aluRegReg f (regByte a) (regByte b) s = .error k := by
  rw [← reg_eq, ← reg_eq] at hf
  simp [aluRegReg, hf, bind, Except.bind]

theorem aluRegReg_of_not_isReg {oa ob : Operand} (h : Operand.isReg oa = false ∨ Operand.isReg ob = false)
    (f : Byte → Byte → Except FaultKind Byte) (s : State) :
    aluRegReg f oa ob s = .error .outOfRangeAddress := by
  simp [aluRegReg, regPair_of_not_isReg _ _ h, bind, Except.bind]

@[simp] theorem aluReg_regByte (f : Byte → Byte) (a : RegIdx) (s : State) :
    aluReg f (regByte a) s = .ok (advance 2 (s.setReg a (f (s.reg a)))) := by
  simp [aluReg, bind, Except.bind, pure, Except.pure]

theorem aluReg_of_not_isReg {oa : Operand} (h : Operand.isReg oa = false) (f : Byte → Byte) (s : State) :
    aluReg f oa s = .error .outOfRangeAddress := by
  simp [aluReg, regOperand_of_not_isReg _ h, bind, Except.bind]

/-! What the written register holds afterwards, whether or not the advance faults. -/

theorem advance_setReg_getElem (n : Nat) (s : State) (a : RegIdx) (v : Byte) :
    (advance n (s.setReg a v)).x[a] = v := by
  simp

theorem getElem_of_aluRegReg {f : Byte → Byte → Except FaultKind Byte} {a b : RegIdx} {s t : State}
    {r : Byte} (hf : f s.x[a] s.x[b] = .ok r)
    (h : settle s (aluRegReg f (regByte a) (regByte b) s) = .next t) : t.x[a] = r := by
  rw [aluRegReg_of_ok hf, settle_ok] at h
  cases h
  exact advance_setReg_getElem 3 s a r

theorem getElem_of_aluReg {f : Byte → Byte} {a : RegIdx} {s t : State}
    (h : settle s (aluReg f (regByte a) s) = .next t) : t.x[a] = f s.x[a] := by
  rw [aluReg_regByte, settle_ok] at h
  cases h
  exact advance_setReg_getElem 2 s a _

/-! ### The rule of an ALU instruction from its operation -/

/-- An instruction of the register-register handler, where its operation answers `g` under `ok`. -/
theorem threeByteRule_of_exec_aluRegReg {opc : Byte} {m : Mnemonic}
    (hm : lookupOpcode specConfig opc = .ok m) {mk : Operand → Operand → Instr}
    {f : Byte → Byte → Except FaultKind Byte} {g : Byte → Byte → Byte}
    {ok : RegIdx → RegIdx → State → Prop}
    (hmk : ∀ oa ob, m.build oa ob = mk oa ob)
    (henc : ∀ va vb, encode (mk (some va) (some vb)) = some [opc, va, vb])
    (hexec : ∀ oa ob s, exec (mk oa ob) s = settle s (aluRegReg f oa ob s))
    (hf : ∀ a b s, ok a b s → f s.x[a] s.x[b] = .ok (g s.x[a] s.x[b])) :
    ThreeByteRule mk opc ok (fun a b s => { s with x := s.x.set a (g s.x[a] s.x[b]) }) := by
  refine threeByteRule_of_exec hm hmk henc (fun _ _ _ => rfl) (fun a b s hok => ?_) (fun oa ob s h => ?_)
  · rw [hexec, aluRegReg_of_ok (hf a b s hok)]
    rfl
  · rw [hexec, aluRegReg_of_not_isReg h]
    rfl

/-- An operation that never raises needs no condition. -/
theorem threeByteRule_of_exec_aluRegReg_ok {opc : Byte} {m : Mnemonic}
    (hm : lookupOpcode specConfig opc = .ok m) {mk : Operand → Operand → Instr} {g : Byte → Byte → Byte}
    (hmk : ∀ oa ob, m.build oa ob = mk oa ob)
    (henc : ∀ va vb, encode (mk (some va) (some vb)) = some [opc, va, vb])
    (hexec : ∀ oa ob s, exec (mk oa ob) s = settle s (aluRegReg (fun u v => .ok (g u v)) oa ob s)) :
    ThreeByteRule mk opc (fun _ _ _ => True) (fun a b s => { s with x := s.x.set a (g s.x[a] s.x[b]) }) :=
  threeByteRule_of_exec_aluRegReg hm hmk henc hexec fun _ _ _ _ => rfl

/-- The same for the one-register handler. -/
theorem twoByteRule_of_exec_aluReg {opc : Byte} {m : Mnemonic} (hm : lookupOpcode specConfig opc = .ok m)
    {mk : Operand → Instr} {g : Byte → Byte} (hmk : ∀ oa ob, m.build oa ob = mk oa)
    (henc : ∀ va, encode (mk (some va)) = some [opc, va])
    (hexec : ∀ oa s, exec (mk oa) s = settle s (aluReg g oa s)) :
    TwoByteRule mk opc (fun _ _ => True) (fun a s => { s with x := s.x.set a (g s.x[a]) }) := by
  refine twoByteRule_of_exec hm hmk henc (fun _ _ => rfl) (fun a s _ => ?_) (fun oa s h => ?_)
  · rw [hexec, aluReg_regByte]
    rfl
  · rw [hexec, aluReg_of_not_isReg h]
    rfl

theorem exec_cmp_of_not_isReg {oa ob : Operand} (h : Operand.isReg oa = false ∨ Operand.isReg ob = false)
    (s : State) : exec (.cmp oa ob) s = .next (raiseFault .outOfRangeAddress s) := by
  simp [exec, execCmp, regPair_of_not_isReg _ _ h, bind, Except.bind]

/-! ### The fault kinds a handler can raise -/

/-- The kinds an instruction can raise; the other two are the dispatch's (R142, R143). -/
def FaultKind.OfHandler (k : FaultKind) : Prop := k = .outOfRangeAddress ∨ k = .divideByZero

theorem eq_of_ok_or_error {α : Type} {x : Except FaultKind α} {k₀ k : FaultKind}
    (hx : (∃ v, x = .ok v) ∨ x = .error k₀) (h : x = .error k) : k = k₀ := by
  rcases hx with ⟨v, hv⟩ | he
  · cases hv.symm.trans h
  · exact (Except.error.inj (he.symm.trans h)).symm

theorem regOperand_error {o : Operand} {k : FaultKind} (h : regOperand o = .error k) :
    k = .outOfRangeAddress :=
  eq_of_ok_or_error ((regOperand_cases o).imp (fun ⟨a, _, ha⟩ => ⟨a, ha⟩) And.right) h

theorem immOperand_error {o : Operand} {k : FaultKind} (h : immOperand o = .error k) :
    k = .outOfRangeAddress :=
  eq_of_ok_or_error ((immOperand_cases o).imp (fun ⟨v, _, hv⟩ => ⟨v, hv⟩) And.right) h

theorem regPair_error {oa ob : Operand} {k : FaultKind} (h : regPair oa ob = .error k) :
    k = .outOfRangeAddress :=
  eq_of_ok_or_error ((regPair_cases oa ob).imp (fun ⟨a, b, _, _, hab⟩ => ⟨(a, b), hab⟩) And.right) h

theorem decrementSp_error {s : State} {k : FaultKind} (h : decrementSp s = .error k) :
    k = .outOfRangeAddress :=
  eq_of_ok_or_error ((decrementSp_cases s).imp (fun ⟨_, ht⟩ => ⟨_, ht⟩) And.right) h

theorem addrPlus_error {a : Byte} {n : Nat} {k : FaultKind} (h : addrPlus a n = .error k) :
    k = .outOfRangeAddress := by
  unfold addrPlus at h
  split at h <;> cases h
  rfl

theorem aluDiv_error {u v : Byte} {k : FaultKind} (h : aluDiv u v = .error k) : k = .divideByZero := by
  unfold aluDiv at h
  split at h <;> cases h
  rfl

theorem aluMod_error {u v : Byte} {k : FaultKind} (h : aluMod u v = .error k) : k = .divideByZero := by
  unfold aluMod at h
  split at h <;> cases h
  rfl

/-- Where the handler `r` leaves the machine Faulted, the kind is one a handler can raise. -/
def FaultsOfHandler (s : State) (r : Except FaultKind State) : Prop :=
  ∀ t k, settle s r = .next t → t.status = .faulted k → k.OfHandler

theorem FaultsOfHandler.error {s : State} {k : FaultKind} (hk : k.OfHandler) : FaultsOfHandler s (.error k) := by
  intro t k' h ht
  cases h
  cases ht
  exact hk

theorem FaultsOfHandler.bind {α : Type} {s : State} {x : Except FaultKind α} {g : α → Except FaultKind State}
    (hx : ∀ {k}, x = .error k → k.OfHandler)
    (hg : ∀ v, x = .ok v → FaultsOfHandler s (g v)) : FaultsOfHandler s (x >>= g) := by
  cases x with
  | ok v => exact hg v rfl
  | error k => exact .error (hx rfl)

/-- The bind of an operand or an address. -/
theorem FaultsOfHandler.range {α : Type} {s : State} {x : Except FaultKind α} {g : α → Except FaultKind State}
    (hx : ∀ {k}, x = .error k → k = .outOfRangeAddress)
    (hg : ∀ v, x = .ok v → FaultsOfHandler s (g v)) : FaultsOfHandler s (x >>= g) :=
  .bind (fun h => .inl (hx h)) hg

theorem FaultsOfHandler.running (s : State) {u : State} (hu : u.status = .running) :
    FaultsOfHandler s (.ok u) := by
  intro t k h ht
  cases h
  cases hu.symm.trans ht

theorem FaultsOfHandler.advance (n : Nat) (s : State) {u : State} (hu : u.status = .running) :
    FaultsOfHandler s (.ok (advance n u)) := by
  rcases advance_cases n u with ⟨-, h⟩ | ⟨-, h⟩
  · rw [h]
    exact .running s hu
  · intro t k ht hk
    rw [h] at ht
    cases ht
    cases hk
    exact .inl rfl

theorem decrementSp_status {s t : State} (h : decrementSp s = .ok t) : t.status = s.status := by
  obtain ⟨p, rfl⟩ := eq_setSp_of_decrementSp h
  rfl

section

variable {s : State} (hs : s.status = .running)
include hs

theorem faultsOfHandler_aluRegReg {f : Byte → Byte → Except FaultKind Byte}
    (hf : ∀ {u v k}, f u v = .error k → k.OfHandler) (oa ob : Operand) :
    FaultsOfHandler s (aluRegReg f oa ob s) :=
  .range regPair_error fun _ _ => .bind hf fun _ _ => .advance 3 s hs

theorem faultsOfHandler_aluRegReg_ok (g : Byte → Byte → Byte) (oa ob : Operand) :
    FaultsOfHandler s (aluRegReg (fun u v => .ok (g u v)) oa ob s) :=
  faultsOfHandler_aluRegReg hs (fun h => by cases h) oa ob

theorem faultsOfHandler_aluRegImm (f : Byte → Byte → Byte) (oa oimm : Operand) :
    FaultsOfHandler s (aluRegImm f oa oimm s) :=
  .range regOperand_error fun _ _ => .range immOperand_error fun _ _ => .advance 3 s hs

theorem faultsOfHandler_printReg (event : Byte → OutEvent) (oa : Operand) :
    FaultsOfHandler s (printReg event oa s) :=
  .range regOperand_error fun _ _ => .advance 2 s hs

theorem faultsOfHandler_jumpReg (oa : Operand) : FaultsOfHandler s (jumpReg oa s) :=
  .range regOperand_error fun _ _ => .running s hs

theorem faultsOfHandler_branchReg (taken : Bool) (oa : Operand) : FaultsOfHandler s (branchReg taken oa s) := by
  cases taken with
  | true => exact faultsOfHandler_jumpReg hs oa
  | false => exact .advance 2 s hs

/-- A running machine that an instruction leaves Faulted has one of the two kinds a handler raises. -/
theorem exec_faulted_ofHandler {i : Instr} :
    ∀ t k, exec i s = .next t → t.status = .faulted k → k.OfHandler := by
  cases i with
  | hlt =>
    intro t k h ht
    cases (exec_hlt s).symm.trans h
    cases ht
  | ret => exact FaultsOfHandler.range addrPlus_error fun _ _ => .running s hs
  | push a =>
    exact FaultsOfHandler.range regOperand_error fun _ _ => .range decrementSp_error fun _ ht =>
      .advance 2 s ((decrementSp_status ht).trans hs)
  | pop a =>
    exact FaultsOfHandler.range regOperand_error fun _ _ => .range addrPlus_error fun _ _ => .advance 2 s hs
  | call a =>
    exact FaultsOfHandler.range regOperand_error fun _ _ => .range decrementSp_error fun _ ht =>
      .range addrPlus_error fun _ _ => .running s ((decrementSp_status ht).trans hs)
  | prn a | pra a => exact faultsOfHandler_printReg hs _ a
  | jmp a => exact faultsOfHandler_jumpReg hs a
  | jeq a | jne a => exact faultsOfHandler_branchReg hs _ a
  | not a => exact FaultsOfHandler.range regOperand_error fun _ _ => .advance 2 s hs
  | ldi a imm => exact faultsOfHandler_aluRegImm hs (fun _ v => v) a imm
  | addi a imm => exact faultsOfHandler_aluRegImm hs _ a imm
  | st a b | cmp a b => exact FaultsOfHandler.range regPair_error fun _ _ => .advance 3 s hs
  | div a b => exact faultsOfHandler_aluRegReg hs (fun h => .inr (aluDiv_error h)) a b
  | mod a b => exact faultsOfHandler_aluRegReg hs (fun h => .inr (aluMod_error h)) a b
  | add a b | sub a b | mul a b | and a b | or a b | xor a b | shl a b | shr a b =>
    exact faultsOfHandler_aluRegReg_ok hs _ a b

end

/-! ### The fault kinds of the dispatch -/

theorem decodeLatched_eq_error_iff {c : Config} {f : Latched} {r : OpcodeReject} :
    decodeLatched c f = .error r ↔ lookupOpcode c f.ir = .error r := by
  unfold decodeLatched
  cases lookupOpcode c f.ir <;> simp

/-- A byte is rejected as routed exactly where the parameter lists it. -/
theorem lookupOpcode_eq_unsupported_iff {c : Config} {op : Byte} :
    lookupOpcode c op = .error .unsupportedAluOperation ↔ op ∈ c.aluRoutedUnimplemented := by
  unfold lookupOpcode
  by_cases h : op ∈ c.aluRoutedUnimplemented
  · simp [h]
  · cases hl : c.opcodeMap.lookup op <;> simp [h]

theorem stepWith_of_routed {c : Config} {s : State} (hs : s.status = .running)
    (h : Memory.byteAt s.mem s.pc.toNat ∈ c.aluRoutedUnimplemented) :
    stepWith c s = .next (raiseFault .unsupportedAluOperation s) :=
  stepWith_of_decodeLatched_error hs
    (decodeLatched_eq_error_iff.mpr (lookupOpcode_eq_unsupported_iff.mpr h))

theorem stepWith_ne_unsupported {c : Config} {s t : State}
    (hb : Memory.byteAt s.mem s.pc.toNat ∉ c.aluRoutedUnimplemented) (h : stepWith c s = .next t) :
    t.status ≠ .faulted .unsupportedAluOperation := by
  intro ht
  obtain ⟨hs, ⟨r, hd, rfl⟩ | ⟨i, -, he⟩⟩ := stepWith_next h
  · cases r with
    | unknownInstruction => cases ht
    | unsupportedAluOperation =>
      exact hb (lookupOpcode_eq_unsupported_iff.mp (decodeLatched_eq_error_iff.mp hd))
  · rcases exec_faulted_ofHandler hs t _ he ht with hk | hk <;> cases hk

end Sys2Proof.Machine

namespace Sys2Proof.Proofs

open Sys2Proof.Machine Sys2Proof.Claim

/-- Settles O18: the lookup rejects a routed byte first, it rejects no other byte as routed, and no
handler raises that kind; the default parameter routes nothing. -/
theorem unsupportedAluOperationFaults : Obligations.UnsupportedAluOperationFaults := by
  refine ⟨fun c s hs => ?_, fun s t h => stepWith_ne_unsupported (c := specConfig) List.not_mem_nil h⟩
  split
  next hb => exact stepWith_of_routed hs hb
  next hb => exact fun t h => stepWith_ne_unsupported hb h

/-- Settles O30: the frames of registers, memory and output for CMP, and every other handler is blind
to the flags. -/
theorem onlyCmpOfTheAluTouchesFlags : Obligations.OnlyCmpOfTheAluTouchesFlags := by
  refine ⟨fun oa ob s t h => ⟨?_, exec_mem h, ?_⟩, fun i s f halu hi => exec_setFl hi s f fun hj => ?_⟩
  · exact Vector.ext fun j hj => registerFrame _ _ _ ⟨j, hj⟩ h rfl
  · exact (outputFrame _ _ _ h).trans (List.append_nil _)
  · rcases hj with hj | hj <;> rw [hj] at halu <;> cases halu

/-- Settles O46: the register-register rule for each, with its operation in natural numbers. -/
theorem addSubMulRules : Obligations.AddSubMulRules := by
  unfold Obligations.AddSubMulRules
  simp only [← aluAdd_eq, ← aluSub_eq, ← aluMul_eq]
  exact ⟨threeByteRule_of_exec_aluRegReg_ok (m := .add) rfl (fun _ _ => rfl) (fun _ _ => rfl)
      (fun _ _ _ => rfl),
    threeByteRule_of_exec_aluRegReg_ok (m := .sub) rfl (fun _ _ => rfl) (fun _ _ => rfl)
      (fun _ _ _ => rfl),
    threeByteRule_of_exec_aluRegReg_ok (m := .mul) rfl (fun _ _ => rfl) (fun _ _ => rfl)
      (fun _ _ _ => rfl)⟩

/-- Settles O47: the register-immediate rule. -/
theorem addImmediateRule : Obligations.AddImmediateRule := by
  unfold Obligations.AddImmediateRule
  simp only [← aluAdd_eq]
  exact immediateRule_of_exec (m := .addi) rfl (fun _ _ => rfl) (fun _ _ => rfl) (fun _ _ _ => rfl)

/-- Settles O48: the register-register rule under a non-zero divisor, and both operations raise on a
zero one. -/
theorem divModRules : Obligations.DivModRules := by
  refine ⟨threeByteRule_of_exec_aluRegReg (m := .div) (g := fun u v => toByte (u.toNat / v.toNat)) rfl
      (fun _ _ => rfl) (fun _ _ => rfl) (fun _ _ _ => rfl) (fun a b s h => aluDiv_of_ne_zero _ h),
    threeByteRule_of_exec_aluRegReg (m := .mod)
      (g := fun u v => toByte (u.toNat - v.toNat * (u.toNat / v.toNat))) rfl
      (fun _ _ => rfl) (fun _ _ => rfl) (fun _ _ _ => rfl) (fun a b s h => aluMod_of_ne_zero _ h),
    fun a b s h => ⟨?_, ?_⟩⟩
  · exact congrArg (settle s) (aluRegReg_of_error (h ▸ aluDiv_zero _))
  · exact congrArg (settle s) (aluRegReg_of_error (h ▸ aluMod_zero _))

/-- Settles O49: both results are exact, so it is the division law of the natural numbers. -/
theorem quotientAndRemainderFit : Obligations.QuotientAndRemainderFit := by
  intro a b s hb
  obtain ⟨hq, hr⟩ := quotient_remainder_toNat s.x[a] s.x[b]
  refine ⟨_, _, congrArg (settle s) (aluRegReg_of_ok (aluDiv_of_ne_zero _ hb)),
    congrArg (settle s) (aluRegReg_of_ok (aluMod_of_ne_zero _ hb)), ?_, ?_⟩
  · rw [advance_setReg_getElem, advance_setReg_getElem, hq, hr, Nat.div_add_mod]
  · rw [advance_setReg_getElem, hr]
    exact Nat.mod_lt _ (Nat.pos_of_ne_zero (toNat_ne_zero_of_ne hb))

/-- Settles O50: the handler writes the flags and then advances, unless an operand is no register. -/
theorem cmpRule : Obligations.CmpRule := by
  unfold Obligations.CmpRule
  simp only [← compareFlags_eq]
  exact threeByteRule_of_exec (m := .cmp) rfl (fun _ _ => rfl) (fun _ _ => rfl) (fun _ _ _ => rfl)
    (fun a b s _ => exec_cmp a b s) (fun _ _ s h => exec_cmp_of_not_isReg h s)

/-- Settles O52: the register-register rule for each, and the result read bit by bit. -/
theorem bitwiseRules : Obligations.BitwiseRules := by
  refine ⟨threeByteRule_of_exec_aluRegReg_ok (m := .and) rfl (fun _ _ => rfl) (fun _ _ => rfl)
      (fun _ _ _ => rfl),
    threeByteRule_of_exec_aluRegReg_ok (m := .or) rfl (fun _ _ => rfl) (fun _ _ => rfl)
      (fun _ _ _ => rfl),
    threeByteRule_of_exec_aluRegReg_ok (m := .xor) rfl (fun _ _ => rfl) (fun _ _ => rfl)
      (fun _ _ _ => rfl),
    fun a b s t u v ht hu hv j _ => ?_⟩
  have hand : t.x[a] = s.x[a] &&& s.x[b] := getElem_of_aluRegReg rfl ht
  have hor : u.x[a] = s.x[a] ||| s.x[b] := getElem_of_aluRegReg rfl hu
  have hxor : v.x[a] = s.x[a] ^^^ s.x[b] := getElem_of_aluRegReg rfl hv
  rw [hand, hor, hxor]
  simp

/-- Settles O53: the one-register rule, and the result is the complement. -/
theorem notRule : Obligations.NotRule := by
  refine ⟨twoByteRule_of_exec_aluReg (m := .not) rfl (fun _ _ => rfl) (fun _ => rfl) (fun _ _ => rfl),
    fun a s t h j hj => ?_⟩
  have hnot : t.x[a] = aluNot s.x[a] := getElem_of_aluReg h
  simp [hnot, aluNot_eq_complement, hj]

/-- Settles O54: the register-register rule for both, and an amount of 8 or more shifts every bit out. -/
theorem shiftRules : Obligations.ShiftRules := by
  unfold Obligations.ShiftRules
  simp only [← aluShl_eq]
  refine ⟨threeByteRule_of_exec_aluRegReg_ok (m := .shl) rfl (fun _ _ => rfl) (fun _ _ => rfl)
      (fun _ _ _ => rfl),
    threeByteRule_of_exec_aluRegReg_ok (m := .shr) rfl (fun _ _ => rfl) (fun _ _ => rfl)
      (fun _ _ _ => rfl),
    fun a b s t u ht hu h8 => ⟨?_, ?_⟩⟩
  · have hshl : t.x[a] = aluShl s.x[a] s.x[b] := getElem_of_aluRegReg rfl ht
    rw [hshl, aluShl_eq_shiftLeft, BitVec.shiftLeft_eq_zero h8]
  · have hshr : u.x[a] = aluShr s.x[a] s.x[b] := getElem_of_aluRegReg rfl hu
    rw [hshr, aluShr_eq_ushiftRight, BitVec.ushiftRight_eq_zero h8]

end Sys2Proof.Proofs
end

/-! SUPPORT and PROOFS for the exceptions (spec/60_exceptions.md): the opcode bytes in no part of the
mapping, the causes under which each instruction faults, and the statements of that family. -/

section

namespace Sys2Proof.Machine

open Sys2Proof.Claim

/-! ### An opcode byte in no part of the mapping -/

theorem lookup_eq_none_iff_not_mem {l : List (Byte × Mnemonic)} {op : Byte} :
    l.lookup op = none ↔ op ∉ l.map Prod.fst := by
  simp only [List.lookup_eq_none_iff, List.mem_map]
  grind

theorem lookupOpcode_eq_unknown_iff {c : Config} {op : Byte} :
    lookupOpcode c op = .error .unknownInstruction ↔
      op ∉ c.opcodeMap.map Prod.fst ∧ op ∉ c.aluRoutedUnimplemented := by
  rw [← lookup_eq_none_iff_not_mem]
  unfold lookupOpcode
  by_cases h : op ∈ c.aluRoutedUnimplemented
  · simp [h]
  · cases c.opcodeMap.lookup op <;> simp [h]

theorem stepWith_ne_unknown {c : Config} {s t : State}
    (hb : ¬ (Memory.byteAt s.mem s.pc.toNat ∉ c.opcodeMap.map Prod.fst ∧
      Memory.byteAt s.mem s.pc.toNat ∉ c.aluRoutedUnimplemented))
    (h : stepWith c s = .next t) : t.status ≠ .faulted .unknownInstruction := by
  intro ht
  obtain ⟨hs, ⟨r, hd, rfl⟩ | ⟨i, -, he⟩⟩ := stepWith_next h
  · cases r with
    | unknownInstruction => exact hb (lookupOpcode_eq_unknown_iff.mp (decodeLatched_eq_error_iff.mp hd))
    | unsupportedAluOperation => cases ht
  · rcases exec_faulted_ofHandler hs t _ he ht with hk | hk <;> cases hk

/-! ### The causes of a fault -/

/-- Cases a to e of R144: the faults raised before the first write. -/
def EarlyCause (i : Instr) (s : State) : Prop :=
  operandCause i s = true ∨ pointerCause i s = true ∨ returnCause i s = true

theorem not_earlyCause {i : Instr} {s : State} (ho : operandCause i s = false)
    (hp : pointerCause i s = false) (hr : returnCause i s = false) : ¬ EarlyCause i s := by
  simp [EarlyCause, ho, hp, hr]

theorem regByte_inj : ∀ {a b : RegIdx}, regByte a = regByte b ↔ a = b := by decide

theorem not_zeroDivisor {i : Instr} {s : State} (hdiv : i.mnemonic ≠ .div) (hmod : i.mnemonic ≠ .mod) :
    ¬ zeroDivisor i s := by
  rintro ⟨a, b, rfl | rfl, -⟩
  · exact hdiv rfl
  · exact hmod rfl

theorem zeroDivisor_div_iff {a b : RegIdx} {s : State} :
    zeroDivisor (.div (regByte a) (regByte b)) s ↔ s.x[b] = 0#8 := by
  simp [zeroDivisor, regByte_inj, and_assoc]

theorem zeroDivisor_mod_iff {a b : RegIdx} {s : State} :
    zeroDivisor (.mod (regByte a) (regByte b)) s ↔ s.x[b] = 0#8 := by
  simp [zeroDivisor, regByte_inj, and_assoc]

/-- The operands of a division by zero are registers, and it uses neither the stack nor a return
address. -/
theorem not_earlyCause_of_zeroDivisor {i : Instr} {s : State} (h : zeroDivisor i s) : ¬ EarlyCause i s := by
  obtain ⟨a, b, rfl | rfl, -⟩ := h <;> exact not_earlyCause (by simp [operandCause]) rfl rfl

/-- The pointer POP increments is the one of the state in which `x[a]` is already written. -/
theorem pointerCause_pop (a : RegIdx) (s : State) :
    pointerCause (.pop (regByte a)) s = ((s.setReg a (s.readByte s.sp)).sp == 255#8) := by
  rw [sp_setReg]
  by_cases h : a = 7 <;> simp [pointerCause, regByte_inj, h, State.readByte, sp_eq]

theorem length_gt_of_advanceCause {i : Instr} {s : State} (h : advanceCause i s = true)
    (hi : i.mnemonic.setsPc = false) : 255 < s.pc.toNat + i.length := by
  cases i with
  | ret | call a | jmp a | jeq a | jne a => cases hi
  | hlt => cases h
  | _ => exact of_decide_eq_true h

/-! ### How each instruction faults

`FaultCase s i t` sorts the states `t` that instruction `i` leaves, run from the running state `s`, by
the cause of a fault that holds: an early cause, else a zero divisor, else the advance (R146). That
every instruction obeys it is `exec_faultCase`, and the statements about faults are case splits on it. -/

/-- The states an instruction can leave a running machine in, one constructor per kind of cause. -/
inductive FaultCase (s : State) (i : Instr) : State → Prop where
  /-- cases a to e of R144: nothing is written -/
  | early (cause : EarlyCause i s) : FaultCase s i (raiseFault .outOfRangeAddress s)
  /-- R145: nothing is written -/
  | zeroDivisor (cause : zeroDivisor i s) : FaultCase s i (raiseFault .divideByZero s)
  /-- case f of R144, after the effects; a branch not taken has none -/
  | advance {u : State} (quiet : ¬ EarlyCause i s) (divides : ¬ Claim.zeroDivisor i s)
      (cause : advanceCause i s = true) (pc : u.pc = s.pc) (effects : u = s ∨ i.mnemonic.setsPc = false) :
      FaultCase s i (raiseFault .outOfRangeAddress u)
  | completes {t : State} (quiet : ¬ EarlyCause i s) (divides : ¬ Claim.zeroDivisor i s)
      (advances : advanceCause i s = false) (status : ∀ k, t.status ≠ .faulted k) : FaultCase s i t

/-- An instruction without an earlier cause ends in its advance. -/
theorem FaultCase.of_advance {s u : State} {i : Instr} {n : Nat} (hu : u.status = .running)
    (hpc : u.pc = s.pc) (he : u = s ∨ i.mnemonic.setsPc = false) (hq : ¬ EarlyCause i s)
    (hz : ¬ Claim.zeroDivisor i s) (ha : advanceCause i s = decide (255 < s.pc.toNat + n)) :
    FaultCase s i (Machine.advance n u) := by
  rw [← hpc] at ha
  rcases advance_cases n u with ⟨hle, h⟩ | ⟨hgt, h⟩
  · rw [h]
    exact .completes hq hz (ha.trans (decide_eq_false (Nat.not_lt.mpr hle))) (by simp [hu])
  · rw [h]
    exact .advance hq hz (ha.trans (decide_eq_true hgt)) hpc he

/-- The handler `r` of instruction `i` faults as the causes say. -/
def FaultsByCause (s : State) (i : Instr) (r : Except FaultKind State) : Prop :=
  ∀ t, settle s r = .next t → FaultCase s i t

theorem FaultsByCause.ok {s u : State} {i : Instr} (h : FaultCase s i u) : FaultsByCause s i (.ok u) := by
  intro t ht
  cases ht
  exact h

theorem FaultsByCause.early {s : State} {i : Instr} (h : EarlyCause i s) :
    FaultsByCause s i (.error .outOfRangeAddress) := by
  intro t ht
  cases ht
  exact .early h

theorem FaultsByCause.zeroDivisor {s : State} {i : Instr} (h : Claim.zeroDivisor i s) :
    FaultsByCause s i (.error .divideByZero) := by
  intro t ht
  cases ht
  exact .zeroDivisor h

/-! One rule per operation that may raise: it raises where its cause holds, and the handler goes on
without that cause. -/

theorem FaultsByCause.regOperand {s : State} {i : Instr} {oa : Operand} {g : RegIdx → Except FaultKind State}
    (ho : operandCause i s = !Operand.isReg oa)
    (hg : ∀ a, oa = regByte a → operandCause i s = false → FaultsByCause s i (g a)) :
    FaultsByCause s i (regOperand oa >>= g) := by
  rcases regOperand_cases oa with ⟨a, rfl, h⟩ | ⟨hr, h⟩
  · rw [h]
    exact hg a rfl (by simp [ho])
  · rw [h]
    exact .early (.inl (by simp [ho, hr]))

theorem FaultsByCause.regPair {s : State} {i : Instr} {oa ob : Operand}
    {g : RegIdx × RegIdx → Except FaultKind State}
    (ho : operandCause i s = (!Operand.isReg oa || !Operand.isReg ob))
    (hg : ∀ p : RegIdx × RegIdx, oa = regByte p.1 → ob = regByte p.2 → operandCause i s = false →
      FaultsByCause s i (g p)) :
    FaultsByCause s i (regPair oa ob >>= g) := by
  rcases regPair_cases oa ob with ⟨a, b, rfl, rfl, h⟩ | ⟨hr, h⟩
  · rw [h]
    exact hg (a, b) rfl rfl (by simp [ho])
  · rw [h]
    exact .early (.inl (by simpa [ho] using hr))

theorem FaultsByCause.decrementSp {s : State} {i : Instr} {g : State → Except FaultKind State}
    (hp : pointerCause i s = (s.x[7] == 0#8))
    (hg : ∀ t, decrementSp s = .ok t → pointerCause i s = false → FaultsByCause s i (g t)) :
    FaultsByCause s i (decrementSp s >>= g) := by
  rcases decrementSp_cases s with ⟨hne, h⟩ | ⟨h0, h⟩
  · have h7 : s.x[7] ≠ 0#8 := fun h7 => hne (congrArg BitVec.toNat h7)
    rw [h]
    exact hg _ h (by simpa [hp] using h7)
  · have h7 : s.x[7] = 0#8 := BitVec.eq_of_toNat_eq h0
    rw [h]
    exact .early (.inr (.inl (by simpa [hp] using h7)))

theorem FaultsByCause.addrPlus {s : State} {i : Instr} {v : Byte} {n : Nat}
    {g : Byte → Except FaultKind State} (hbad : 255 < v.toNat + n → EarlyCause i s)
    (hg : ∀ p, v.toNat + n ≤ 255 → FaultsByCause s i (g p)) : FaultsByCause s i (addrPlus v n >>= g) := by
  rcases Nat.lt_or_ge 255 (v.toNat + n) with h | h
  · rw [addrPlus_of_gt v n h]
    exact .early (hbad h)
  · rw [addrPlus_of_le v n h]
    exact hg _ h

theorem FaultsByCause.incrementSp {s : State} {i : Instr} {v : Byte} {g : Byte → Except FaultKind State}
    (hp : pointerCause i s = (v == 255#8)) (hg : ∀ p, pointerCause i s = false → FaultsByCause s i (g p)) :
    FaultsByCause s i (Machine.addrPlus v 1 >>= g) := by
  refine .addrPlus (fun h => .inr (.inl ?_)) fun p h => hg p ?_
  · have hv : v = 255#8 := by bv_omega
    simp [hp, hv]
  · have hv : v ≠ 255#8 := by rintro rfl; simp at h
    simp [hp, hv]

/-- A division answers, or its divisor is zero and it raises. -/
theorem answers_or_zero {f : Byte → Byte → Except FaultKind Byte} {g : Byte → Byte → Byte}
    (hzero : ∀ u, f u 0#8 = .error .divideByZero) (hf : ∀ u {v}, v ≠ 0#8 → f u v = .ok (g u v))
    (u v : Byte) :
    (∃ r, f u v = .ok r ∧ v ≠ 0#8) ∨ (f u v = .error .divideByZero ∧ v = 0#8) := by
  by_cases h : v = 0#8
  · exact .inr ⟨h ▸ hzero u, h⟩
  · exact .inl ⟨_, hf u h, h⟩

section

variable {s : State} (hs : s.status = .running) {i : Instr}
include hs

theorem jumpReg_faultsByCause {oa : Operand} (ho : operandCause i s = !Operand.isReg oa)
    (hp : pointerCause i s = false) (hr : returnCause i s = false) (ha : advanceCause i s = false)
    (hz : ¬ zeroDivisor i s) : FaultsByCause s i (jumpReg oa s) :=
  .regOperand ho fun _ _ ho => .ok (.completes (not_earlyCause ho hp hr) hz ha (by simp [hs]))

/-- `taken` decides which of the two causes a branch can have: its operand, or its advance. -/
theorem branchReg_faultsByCause {taken : Bool} {oa : Operand}
    (ho : operandCause i s = (taken && !Operand.isReg oa)) (hp : pointerCause i s = false)
    (hr : returnCause i s = false) (ha : advanceCause i s = (!taken && decide (255 < s.pc.toNat + 2)))
    (hz : ¬ zeroDivisor i s) : FaultsByCause s i (branchReg taken oa s) := by
  cases taken with
  | true => exact jumpReg_faultsByCause hs ho hp hr ha hz
  | false => exact .ok (.of_advance hs rfl (.inl rfl) (not_earlyCause ho hp hr) hz ha)

variable (hset : i.mnemonic.setsPc = false)
include hset

theorem printReg_faultsByCause {event : Byte → OutEvent} {oa : Operand}
    (ho : operandCause i s = !Operand.isReg oa) (hp : pointerCause i s = false)
    (hr : returnCause i s = false) (ha : advanceCause i s = decide (255 < s.pc.toNat + 2))
    (hz : ¬ zeroDivisor i s) : FaultsByCause s i (printReg event oa s) :=
  .regOperand ho fun _ _ ho => .ok (.of_advance hs rfl (.inr hset) (not_earlyCause ho hp hr) hz ha)

theorem aluRegImm_faultsByCause {f : Byte → Byte → Byte} {oa oimm : Operand}
    (ho : operandCause i s = (!Operand.isReg oa || !Operand.present oimm))
    (hp : pointerCause i s = false) (hr : returnCause i s = false)
    (ha : advanceCause i s = decide (255 < s.pc.toNat + 3)) (hz : ¬ zeroDivisor i s) :
    FaultsByCause s i (aluRegImm f oa oimm s) := by
  rcases aluRegImm_cases f oa oimm s with ⟨a, v, rfl, rfl, h⟩ | ⟨hbad, h⟩
  · rw [h]
    exact .ok (.of_advance hs rfl (.inr hset) (not_earlyCause (by simp [ho, Operand.present]) hp hr) hz ha)
  · rw [h]
    exact .early (.inl (by simpa [ho, Operand.present] using hbad))

/-- The operation answers, or it raises DivideByZero where the divisor is zero. -/
theorem aluRegReg_faultsByCause {f : Byte → Byte → Except FaultKind Byte} {oa ob : Operand}
    (ho : operandCause i s = (!Operand.isReg oa || !Operand.isReg ob))
    (hp : pointerCause i s = false) (hr : returnCause i s = false)
    (ha : advanceCause i s = decide (255 < s.pc.toNat + 3))
    (hf : ∀ a b, oa = regByte a → ob = regByte b →
      (∃ r, f s.x[a] s.x[b] = .ok r ∧ ¬ zeroDivisor i s) ∨
        (f s.x[a] s.x[b] = .error .divideByZero ∧ zeroDivisor i s)) :
    FaultsByCause s i (aluRegReg f oa ob s) := by
  refine .regPair ho fun (a, b) hoa hob ho => ?_
  show FaultsByCause s i (f s.x[a] s.x[b] >>= _)
  rcases hf a b hoa hob with ⟨r, h, hz⟩ | ⟨h, hz⟩
  · rw [h]
    exact .ok (.of_advance hs rfl (.inr hset) (not_earlyCause ho hp hr) hz ha)
  · rw [h]
    exact .zeroDivisor hz

end

/-- Every instruction, in every state it can start in, faults as its causes say. -/
theorem exec_faultCase {i : Instr} {s : State} (hs : s.status = .running) :
    ∀ t, exec i s = .next t → FaultCase s i t := by
  cases i with
  | hlt =>
    exact FaultsByCause.ok (.completes (not_earlyCause rfl rfl rfl) (not_zeroDivisor nofun nofun) rfl nofun)
  | ret =>
    exact FaultsByCause.incrementSp rfl fun _ hp =>
      .ok (.completes (not_earlyCause rfl hp rfl) (not_zeroDivisor nofun nofun) rfl (by simp [hs]))
  | push a =>
    exact FaultsByCause.regOperand rfl fun _ _ ho => .decrementSp rfl fun _ ht hp =>
      .ok (.of_advance ((decrementSp_status ht).trans hs) ((writeByte_pc _ _ _).trans (decrementSp_pc ht))
        (.inr rfl) (not_earlyCause ho hp rfl) (not_zeroDivisor nofun nofun) rfl)
  | pop a =>
    refine FaultsByCause.regOperand rfl fun a ha ho => ?_
    subst ha
    exact .incrementSp (pointerCause_pop a s) fun _ hp =>
      .ok (.of_advance hs rfl (.inr rfl) (not_earlyCause ho hp rfl) (not_zeroDivisor nofun nofun) rfl)
  | call a =>
    exact FaultsByCause.regOperand rfl fun _ _ ho => .decrementSp rfl fun _ ht hp =>
      .addrPlus (fun h => .inr (.inr (decide_eq_true h))) fun _ h =>
        .ok (.completes (not_earlyCause ho hp (decide_eq_false (Nat.not_lt.mpr h)))
          (not_zeroDivisor nofun nofun) rfl (by simp [decrementSp_status ht, hs]))
  | prn a | pra a => exact printReg_faultsByCause hs rfl rfl rfl rfl rfl (not_zeroDivisor nofun nofun)
  | jmp a => exact jumpReg_faultsByCause hs rfl rfl rfl rfl (not_zeroDivisor nofun nofun)
  | jeq a => exact branchReg_faultsByCause hs rfl rfl rfl rfl (not_zeroDivisor nofun nofun)
  | jne a =>
    exact branchReg_faultsByCause hs rfl rfl rfl (by simp [advanceCause, flagE]) (not_zeroDivisor nofun nofun)
  | not a =>
    exact FaultsByCause.regOperand rfl fun _ _ ho =>
      .ok (.of_advance hs rfl (.inr rfl) (not_earlyCause ho rfl rfl) (not_zeroDivisor nofun nofun) rfl)
  | ldi a imm =>
    exact aluRegImm_faultsByCause (f := fun _ v => v) hs rfl rfl rfl rfl rfl (not_zeroDivisor nofun nofun)
  | addi a imm => exact aluRegImm_faultsByCause hs rfl rfl rfl rfl rfl (not_zeroDivisor nofun nofun)
  | st a b | cmp a b =>
    exact FaultsByCause.regPair rfl fun _ _ _ ho =>
      .ok (.of_advance hs rfl (.inr rfl) (not_earlyCause ho rfl rfl) (not_zeroDivisor nofun nofun) rfl)
  | div a b =>
    refine aluRegReg_faultsByCause hs rfl rfl rfl rfl rfl fun a b ha hb => ?_
    rw [ha, hb, zeroDivisor_div_iff]
    exact answers_or_zero aluDiv_zero aluDiv_of_ne_zero _ _
  | mod a b =>
    refine aluRegReg_faultsByCause hs rfl rfl rfl rfl rfl fun a b ha hb => ?_
    rw [ha, hb, zeroDivisor_mod_iff]
    exact answers_or_zero aluMod_zero aluMod_of_ne_zero _ _
  | add a b | sub a b | mul a b | and a b | or a b | xor a b | shl a b | shr a b =>
    exact aluRegReg_faultsByCause hs rfl rfl rfl rfl rfl fun _ _ _ _ =>
      .inl ⟨_, rfl, not_zeroDivisor nofun nofun⟩

/-- R147 for an instruction. -/
theorem FaultCase.precise {s t : State} {i : Instr} {k : FaultKind} (h : FaultCase s i t)
    (ht : t.status = .faulted k) : t.pc = s.pc ∧ (t = afterFault k s ∨
      (k = .outOfRangeAddress ∧ i.mnemonic.setsPc = false ∧ 255 < s.pc.toNat + i.length)) := by
  cases h with
  | early | zeroDivisor =>
    cases ht
    exact ⟨rfl, .inl rfl⟩
  | completes _ _ _ hno => exact absurd ht (hno k)
  | advance _ _ cause hpc effects =>
    cases ht
    refine ⟨hpc, ?_⟩
    rcases effects with rfl | hset
    · exact .inl rfl
    · exact .inr ⟨rfl, hset, length_gt_of_advanceCause cause hset⟩

theorem specConfig_lawful : specConfig.Lawful := Config.lawful_of_admissible (by decide)

end Sys2Proof.Machine

namespace Sys2Proof.Proofs

open Sys2Proof.Machine Sys2Proof.Claim

/-- Settles O17: the lookup rejects such a byte as unknown and no other, and no handler raises that
kind. -/
theorem unknownOpcodeFaults : Obligations.UnknownOpcodeFaults := by
  intro c s hs
  split
  next hb =>
    exact stepWith_of_decodeLatched_error hs
      (decodeLatched_eq_error_iff.mpr (lookupOpcode_eq_unknown_iff.mpr hb))
  next hb => exact fun t h => stepWith_ne_unknown hb h

/-- Settles O25: the dispatch faults with nothing written, an instruction by `FaultCase.precise`, and
bit 4 and bits 7:6 of the opcode byte are its part in `pc` and its length. -/
theorem faultsArePrecise : Obligations.FaultsArePrecise := by
  intro s t k hstep ht
  obtain ⟨hs, ⟨r, -, rfl⟩ | ⟨i, hd, hexec⟩⟩ := stepWith_next hstep
  · cases ht
    exact ⟨rfl, .inl rfl⟩
  · obtain ⟨hm, -⟩ := (decodeLatched_eq_ok_iff specConfig_lawful).mp hd
    obtain ⟨hnops, -, hsets⟩ := specConfig_lawful.controlBits hm
    obtain ⟨hpc, h⟩ := (exec_faultCase hs t hexec).precise ht
    refine ⟨hpc, h.imp_right fun ⟨hk, hset, hlen⟩ => ⟨hk, hsets.trans hset, ?_⟩⟩
    rwa [Instr.length, ← hnops, ← Nat.add_assoc] at hlen

/-- Settles O26: of the cases of `FaultCase` one has this kind, and it writes nothing. -/
theorem divideByZeroExactly : Obligations.DivideByZeroExactly := by
  intro i s t hs h
  cases exec_faultCase hs t h with
  | early cause =>
    have hz : ¬ zeroDivisor i s := fun hz => not_earlyCause_of_zeroDivisor hz cause
    exact ⟨iff_of_false nofun hz, fun h => absurd h hz⟩
  | zeroDivisor cause => exact ⟨iff_of_true rfl cause, fun _ => rfl⟩
  | advance _ divides => exact ⟨iff_of_false nofun divides, fun h => absurd h divides⟩
  | completes _ divides _ hno => exact ⟨iff_of_false (hno _) divides, fun h => absurd h divides⟩

/-- Settles O27: of the cases of `FaultCase` two have this kind, the early causes and the advance. -/
theorem outOfRangeExactly : Obligations.OutOfRangeExactly := by
  intro i s t hs h
  have hcauses : (operandCause i s = true ∨ pointerCause i s = true ∨ returnCause i s = true ∨
      (advanceCause i s = true ∧ ¬ zeroDivisor i s)) ↔
      EarlyCause i s ∨ (advanceCause i s = true ∧ ¬ zeroDivisor i s) := by
    simp only [EarlyCause, or_assoc]
  rw [hcauses]
  cases exec_faultCase hs t h with
  | early cause => exact iff_of_true rfl (.inl cause)
  | zeroDivisor cause =>
    exact iff_of_false nofun fun h => h.elim (not_earlyCause_of_zeroDivisor cause) fun h => h.2 cause
  | advance _ divides cause => exact iff_of_true rfl (.inr ⟨cause, divides⟩)
  | completes quiet _ advances hno => exact iff_of_false (hno _) (by simp [quiet, advances])

end Sys2Proof.Proofs
end

/-! SUPPORT and PROOFS for reset and the loader (spec/70_reset_and_hazards.md): what the start state
holds, field by field and cell by cell, and the statements of that family. -/

section

namespace Sys2Proof.Machine

/-! ### The start state: the loader touches the memory only -/

@[simp] theorem start_x (image : List Byte) : (State.start image).x = State.reset.x := rfl
@[simp] theorem start_pc (image : List Byte) : (State.start image).pc = State.reset.pc := rfl
@[simp] theorem start_fl (image : List Byte) : (State.start image).fl = State.reset.fl := rfl
@[simp] theorem start_status (image : List Byte) : (State.start image).status = State.reset.status := rfl
@[simp] theorem start_out (image : List Byte) : (State.start image).out = State.reset.out := rfl

/-- A cell the image covers holds its byte of the image; any other reads as an unlisted one, which is
also what `getD` answers past the end. -/
theorem byteAt_start (image : List Byte) {n : Nat} (hn : n < 256) :
    Memory.byteAt (State.start image).mem n = image.getD n Memory.unlisted := by
  refine (byteAt_load image 0 n State.reset.mem hn).trans ?_
  split
  next => rw [Nat.sub_zero]
  next houtside =>
    have hlen : image.length ≤ n := by omega
    rw [List.getD_eq_getElem?_getD, List.getElem?_eq_none hlen]
    rfl

end Sys2Proof.Machine

namespace Sys2Proof.Proofs

open Sys2Proof.Machine Sys2Proof.Claim

/-- Settles O3: the cells by `byteAt_start`, the canonical form by O7. Both hold for an image of any
length. -/
theorem loadedImageIsInMemory : Obligations.LoadedImageIsInMemory :=
  fun image _ => ⟨fun _ hn => byteAt_start image hn, (startMeetsInvariant.2 image).memory,
    start_x image, start_pc image, start_fl image, start_status image, start_out image⟩

/-- Settles O1: the start state has the registers, `pc` and status of reset (O2), and the opcode byte
is fetched at `pc`. -/
theorem runStartsAtAddressZero : Obligations.RunStartsAtAddressZero := by
  obtain ⟨hx, hpc, -, hstatus, -, -⟩ := resetTable
  intro image
  refine ⟨(start_pc image).trans hpc, (start_status image).trans hstatus, hx 7, ?_⟩
  rw [fetch_ir, State.readByte, start_pc, hpc]
  rfl

end Sys2Proof.Proofs
end
